-- ==== Sys2Proof/Word.lean ====
section
/-! DEFINITION. The words of the decoder: nibbles, bytes, the 16-bit instruction word, the operand widths, and text as
ASCII bytes (00_scope.md rules R6, R7, R8; 48_render.md rule R131). Every value is unsigned. -/

namespace Sys2Proof

/-- A 4-bit half-byte (R7); also a register index (`REG_IDX_W` = 4) and the sprite height (`COUNT_W` = 4), R6. -/
abbrev Nibble := BitVec 4

/-- A byte of the buffer, and an immediate (`IMM_W` = 8), R6, R7. -/
abbrev Byte := BitVec 8

/-- A 12-bit address operand (`ADDR_W` = 12), R6. -/
abbrev Addr := BitVec 12

/-- The instruction word `w = high * 256 + low` (`WORD_W` = 16), and the 16-bit `offset` port (`OFFSET_W` = 16), R6, R7. -/
abbrev Word := BitVec 16

/-- A text: one 8-bit ASCII code per character, no terminator (R16, R131, R132). -/
abbrev Text := List Byte

/-- The ASCII bytes of a list of characters (R8: "a string of ASCII characters, without terminator"). -/
def ascii (cs : List Char) : Text := cs.map fun c => BitVec.ofNat 8 c.toNat

end Sys2Proof
end

