-- ==== Sys2Proof/Config.lean ====
section
/-! DEFINITION. The parameters of the hardware (00_scope.md rule R6) and the free value the spec leaves open
(93_implementation_defined.md U2). A parameter the spec says a model should keep open is a field of `Params`; the value
this hardware has is `hardware`. -/

namespace Sys2Proof.Config

/-- `KEY_REG_SEL` (R6, R49): which nibble is the register operand of the two class-0xE forms. -/
inductive KeyRegSel where
  | n3
  | n1
  deriving DecidableEq, Repr

/-- The parameters of R6 that change a decode result or a text: U8, U5 and U10 of 93_implementation_defined.md. -/
structure Params where
  keyRegSel : KeyRegSel
  unknownText : Text
  operandHexUpper : Bool
  deriving DecidableEq, Repr

/-- This hardware's values (R6): `KEY_REG_SEL = n3` (D4), `UNKNOWN_TEXT = "UNKNOWN"` (D6),
`OPERAND_HEX_UPPER = false` (D7). -/
def hardware : Params where
  keyRegSel := .n3
  unknownText := ascii ['U', 'N', 'K', 'N', 'O', 'W', 'N']
  operandHexUpper := false

/-- `BASE` (R6, R36): the offset of the first program byte, and the first offset the driver decodes. -/
abbrev base : Nat := 0x200

/-- `WORD_BYTES` (R6, R46): bytes per instruction, and the driver's step (R21). -/
abbrev wordBytes : Nat := 2

/-- The number of values of a 16-bit index: `BUF_LEN <= 65536` (R29), and an offset above `0xFFFF` is not representable
(U12). -/
abbrev indexLimit : Nat := 65536

/-- FREE VALUE (log 3): what a byte of the buffer holds that the driver has not placed. The spec treats it as "any value"
(R37; 93_implementation_defined.md U2), so it has no body and nothing can be proved of it. -/
opaque unspecifiedByte : Nat → Byte

end Sys2Proof.Config
end

