-- ==== Sys2Proof/Syntax.lean ====
section
/-! DEFINITION. The decoded instruction: the variant type of 10_state.md rule R17, one constructor per case, with the
fields that case carries. The four default rows of the opcode table are one case, `unknown` (30_encoding.md rule R62,
47_unknown.md rule R113), which carries nothing (92_eei_decisions.md D10). -/

namespace Sys2Proof

/-- `DecodedInstruction` (R17): 34 known forms in the order of R52, and the sentinel `unknown`. -/
inductive Instr where
  /-- `CLS`, clear-screen form (R73). -/
  | cls
  /-- `RET`, return-from-subroutine form (R74). -/
  | ret
  /-- `JP`, jump (R76). -/
  | jp (nnn : Addr)
  /-- `CALL`, call subroutine (R77). -/
  | call (nnn : Addr)
  /-- `SE_IMM`, skip-if-equal-immediate (R78). -/
  | seImm (x : Nibble) (kk : Byte)
  /-- `SNE_IMM`, skip-if-not-equal-immediate (R79). -/
  | sneImm (x : Nibble) (kk : Byte)
  /-- `SE_REG`, skip-if-registers-equal (R80). -/
  | seReg (x y : Nibble)
  /-- `LD_IMM`, load immediate (R81). -/
  | ldImm (x : Nibble) (kk : Byte)
  /-- `ADD_IMM`, add immediate (R82). -/
  | addImm (x : Nibble) (kk : Byte)
  /-- `LD_REG`, move (R85). -/
  | ldReg (x y : Nibble)
  /-- `OR`, or (R86). -/
  | or (x y : Nibble)
  /-- `AND`, and (R87). -/
  | and (x y : Nibble)
  /-- `XOR`, xor (R88). -/
  | xor (x y : Nibble)
  /-- `ADD_REG`, add-with-carry (R89). -/
  | addReg (x y : Nibble)
  /-- `SUB`, sub-with-borrow (R90). -/
  | sub (x y : Nibble)
  /-- `SHR`, shift-right; carries `y`, which is not printed (R91). -/
  | shr (x y : Nibble)
  /-- `SUBN`, sub-reverse-with-borrow (R92). -/
  | subn (x y : Nibble)
  /-- `SHL`, shift-left; carries `y`, which is not printed (R93). -/
  | shl (x y : Nibble)
  /-- `SNE_REG`, skip-if-registers-not-equal (R94). -/
  | sneReg (x y : Nibble)
  /-- `LD_I`, set index register (R95). -/
  | ldI (nnn : Addr)
  /-- `JP_V0`, jump with offset (R96). -/
  | jpV0 (nnn : Addr)
  /-- `RND`, random-with-mask (R97). -/
  | rnd (x : Nibble) (kk : Byte)
  /-- `DRW`, draw sprite (R98). -/
  | drw (x y n : Nibble)
  /-- `SKP`, skip-if-key-pressed (R101). -/
  | skp (x : Nibble)
  /-- `SKNP`, skip-if-key-not-pressed (R102). -/
  | sknp (x : Nibble)
  /-- `LD_VX_DT`, class 0xF selector 0x07 (R104). -/
  | ldVxDt (x : Nibble)
  /-- `LD_VX_K`, selector 0x0A (R105). -/
  | ldVxK (x : Nibble)
  /-- `LD_DT_VX`, selector 0x15 (R106). -/
  | ldDtVx (x : Nibble)
  /-- `LD_ST_VX`, selector 0x18 (R107). -/
  | ldStVx (x : Nibble)
  /-- `ADD_I_VX`, selector 0x1E (R108). -/
  | addIVx (x : Nibble)
  /-- `LD_F_VX`, selector 0x29 (R109). -/
  | ldFVx (x : Nibble)
  /-- `LD_B_VX`, selector 0x33, the BCD-store form (R110). -/
  | ldBVx (x : Nibble)
  /-- `LD_MEM_VX`, selector 0x55 (R111). -/
  | ldMemVx (x : Nibble)
  /-- `LD_VX_MEM`, selector 0x65 (R112). -/
  | ldVxMem (x : Nibble)
  /-- `UNKNOWN`, every word that matches no row of the table (R113). -/
  | unknown
  deriving DecidableEq, Repr

end Sys2Proof
end

