-- ==== Sys2Proof/WellFormed.lean ====
section
/-! DEFINITION. Which values of `Instr` a word can decode to. The widths of R17 leave one check: under
`KEY_REG_SEL = n3` the register of the class-0xE forms is part of the selector byte, so it is the constant 0xE for `SKP`
and 0x1 for `SKNP` (30_encoding.md rule R49, 45_class_E.md rule R100). -/

namespace Sys2Proof

/-- The value `i` is the decode of some word, under the parameters `p` (R49, R100). -/
def Instr.wellFormed (p : Config.Params) (i : Instr) : Bool :=
  match i with
  | .skp x => p.keyRegSel == .n1 || x == 0xE#4
  | .sknp x => p.keyRegSel == .n1 || x == 0x1#4
  | .cls => true
  | .ret => true
  | .jp _ => true
  | .call _ => true
  | .seImm _ _ => true
  | .sneImm _ _ => true
  | .seReg _ _ => true
  | .ldImm _ _ => true
  | .addImm _ _ => true
  | .ldReg _ _ => true
  | .or _ _ => true
  | .and _ _ => true
  | .xor _ _ => true
  | .addReg _ _ => true
  | .sub _ _ => true
  | .shr _ _ => true
  | .subn _ _ => true
  | .shl _ _ => true
  | .sneReg _ _ => true
  | .ldI _ => true
  | .jpV0 _ => true
  | .rnd _ _ => true
  | .drw _ _ _ => true
  | .ldVxDt _ => true
  | .ldVxK _ => true
  | .ldDtVx _ => true
  | .ldStVx _ => true
  | .addIVx _ => true
  | .ldFVx _ => true
  | .ldBVx _ => true
  | .ldMemVx _ => true
  | .ldVxMem _ => true
  | .unknown => true

end Sys2Proof
end

