-- ==== Sys2Proof/Decode.lean ====
section
/-! DEFINITION. DECODE (40_dispatch.md): field extraction done once (R68), the two-level dispatch (R66), its ROM form over
the 34 rows of 30_encoding.md rule R52 (R67), the variant ids (R61), and the model's own encoder, which the hardware does
not have (00_scope.md rule R4) and which is written from the same table. -/

namespace Sys2Proof

/-- Bits 7..4 of a byte (R7). -/
def hiNibble (b : Byte) : Nibble := b.extractLsb' 4 4

/-- Bits 3..0 of a byte (R7). -/
def loNibble (b : Byte) : Nibble := b.extractLsb' 0 4

/-- `high = w[15:8]` (R7). -/
def highByte (w : Word) : Byte := w.extractLsb' 8 8

/-- `low = w[7:0]` (R7). -/
def lowByte (w : Word) : Byte := w.extractLsb' 0 8

/-- The values extracted once, before the dispatch (R68): the six assignments at the head of R66's pseudocode, and the
raw `low` byte. -/
structure Fields where
  n0 : Nibble
  n1 : Nibble
  n2 : Nibble
  n3 : Nibble
  low : Byte
  nnn : Addr
  key : Nibble
  deriving DecidableEq, Repr

/-- Field extraction (R66, R68, R48 to R51): `nnn = n1 :: low` (conflict C1), `key` by `KEY_REG_SEL` (R49, conflict C2). -/
def fields (p : Config.Params) (high low : Byte) : Fields where
  n0 := hiNibble high
  n1 := loNibble high
  n2 := hiNibble low
  n3 := loNibble low
  low := low
  nnn := loNibble high ++ low
  key := match p.keyRegSel with
    | .n3 => loNibble low
    | .n1 => loNibble high

/-- Class 0x0 (R73 to R75): the selector is `low`. -/
def decodeClass0 (f : Fields) : Instr :=
  match f.low.toNat with
  | 0xE0 => .cls
  | 0xEE => .ret
  | _ => .unknown

/-- Class 0x8 (R84 to R93, R115): the selector is `n3`. -/
def decodeClass8 (f : Fields) : Instr :=
  match f.n3.toNat with
  | 0x0 => .ldReg f.n1 f.n2
  | 0x1 => .or f.n1 f.n2
  | 0x2 => .and f.n1 f.n2
  | 0x3 => .xor f.n1 f.n2
  | 0x4 => .addReg f.n1 f.n2
  | 0x5 => .sub f.n1 f.n2
  | 0x6 => .shr f.n1 f.n2
  | 0x7 => .subn f.n1 f.n2
  | 0xE => .shl f.n1 f.n2
  | _ => .unknown

/-- Class 0xE (R100 to R102, R116): the selector is `low`, the register operand is `key`. -/
def decodeClassE (f : Fields) : Instr :=
  match f.low.toNat with
  | 0x9E => .skp f.key
  | 0xA1 => .sknp f.key
  | _ => .unknown

/-- Class 0xF (R103 to R112, R116): the selector is `low`. -/
def decodeClassF (f : Fields) : Instr :=
  match f.low.toNat with
  | 0x07 => .ldVxDt f.n1
  | 0x0A => .ldVxK f.n1
  | 0x15 => .ldDtVx f.n1
  | 0x18 => .ldStVx f.n1
  | 0x1E => .addIVx f.n1
  | 0x29 => .ldFVx f.n1
  | 0x33 => .ldBVx f.n1
  | 0x55 => .ldMemVx f.n1
  | 0x65 => .ldVxMem f.n1
  | _ => .unknown

/-- The dispatch on the class nibble `n0` (R66). A nibble is at most 15, so the last arm is class 0xF and nothing else; no
arm continues into the next (R70). -/
def dispatch (f : Fields) : Instr :=
  match f.n0.toNat with
  | 0x0 => decodeClass0 f
  | 0x1 => .jp f.nnn
  | 0x2 => .call f.nnn
  | 0x3 => .seImm f.n1 f.low
  | 0x4 => .sneImm f.n1 f.low
  | 0x5 => .seReg f.n1 f.n2
  | 0x6 => .ldImm f.n1 f.low
  | 0x7 => .addImm f.n1 f.low
  | 0x8 => decodeClass8 f
  | 0x9 => .sneReg f.n1 f.n2
  | 0xA => .ldI f.nnn
  | 0xB => .jpV0 f.nnn
  | 0xC => .rnd f.n1 f.low
  | 0xD => .drw f.n1 f.n2 f.n3
  | 0xE => decodeClassE f
  | _ => decodeClassF f

/-- `decode(high, low)` under the parameters `p` (R63, R66): a total function (R64). -/
def decodeWith (p : Config.Params) (high low : Byte) : Instr := dispatch (fields p high low)

/-- `decode(high, low)` of this hardware (R63, R66). -/
def decode (high low : Byte) : Instr := decodeWith Config.hardware high low

/-! ## The ROM form -/

/-- One row of the decode table (R52, R67): the row is selected where `w & mask = pattern`, and gives `make` of the word's
fields. -/
structure RomRow where
  mask : Word
  pattern : Word
  make : Fields → Instr

/-- `(w & r.mask) == r.match` (R67). -/
def RomRow.selects (r : RomRow) (w : Word) : Bool := w &&& r.mask == r.pattern

/-- Rows 1 to 9 of R52: classes 0x0 to 0x7. -/
def romRows0to7 : List RomRow := [
  ⟨0xF0FF#16, 0x00E0#16, fun _ => .cls⟩,
  ⟨0xF0FF#16, 0x00EE#16, fun _ => .ret⟩,
  ⟨0xF000#16, 0x1000#16, fun f => .jp f.nnn⟩,
  ⟨0xF000#16, 0x2000#16, fun f => .call f.nnn⟩,
  ⟨0xF000#16, 0x3000#16, fun f => .seImm f.n1 f.low⟩,
  ⟨0xF000#16, 0x4000#16, fun f => .sneImm f.n1 f.low⟩,
  ⟨0xF000#16, 0x5000#16, fun f => .seReg f.n1 f.n2⟩,
  ⟨0xF000#16, 0x6000#16, fun f => .ldImm f.n1 f.low⟩,
  ⟨0xF000#16, 0x7000#16, fun f => .addImm f.n1 f.low⟩]

/-- Rows 10 to 18 of R52: class 0x8. -/
def romRows8 : List RomRow := [
  ⟨0xF00F#16, 0x8000#16, fun f => .ldReg f.n1 f.n2⟩,
  ⟨0xF00F#16, 0x8001#16, fun f => .or f.n1 f.n2⟩,
  ⟨0xF00F#16, 0x8002#16, fun f => .and f.n1 f.n2⟩,
  ⟨0xF00F#16, 0x8003#16, fun f => .xor f.n1 f.n2⟩,
  ⟨0xF00F#16, 0x8004#16, fun f => .addReg f.n1 f.n2⟩,
  ⟨0xF00F#16, 0x8005#16, fun f => .sub f.n1 f.n2⟩,
  ⟨0xF00F#16, 0x8006#16, fun f => .shr f.n1 f.n2⟩,
  ⟨0xF00F#16, 0x8007#16, fun f => .subn f.n1 f.n2⟩,
  ⟨0xF00F#16, 0x800E#16, fun f => .shl f.n1 f.n2⟩]

/-- Rows 19 to 25 of R52: classes 0x9 to 0xE. -/
def romRows9toE : List RomRow := [
  ⟨0xF000#16, 0x9000#16, fun f => .sneReg f.n1 f.n2⟩,
  ⟨0xF000#16, 0xA000#16, fun f => .ldI f.nnn⟩,
  ⟨0xF000#16, 0xB000#16, fun f => .jpV0 f.nnn⟩,
  ⟨0xF000#16, 0xC000#16, fun f => .rnd f.n1 f.low⟩,
  ⟨0xF000#16, 0xD000#16, fun f => .drw f.n1 f.n2 f.n3⟩,
  ⟨0xF0FF#16, 0xE09E#16, fun f => .skp f.key⟩,
  ⟨0xF0FF#16, 0xE0A1#16, fun f => .sknp f.key⟩]

/-- Rows 26 to 34 of R52: class 0xF. -/
def romRowsF : List RomRow := [
  ⟨0xF0FF#16, 0xF007#16, fun f => .ldVxDt f.n1⟩,
  ⟨0xF0FF#16, 0xF00A#16, fun f => .ldVxK f.n1⟩,
  ⟨0xF0FF#16, 0xF015#16, fun f => .ldDtVx f.n1⟩,
  ⟨0xF0FF#16, 0xF018#16, fun f => .ldStVx f.n1⟩,
  ⟨0xF0FF#16, 0xF01E#16, fun f => .addIVx f.n1⟩,
  ⟨0xF0FF#16, 0xF029#16, fun f => .ldFVx f.n1⟩,
  ⟨0xF0FF#16, 0xF033#16, fun f => .ldBVx f.n1⟩,
  ⟨0xF0FF#16, 0xF055#16, fun f => .ldMemVx f.n1⟩,
  ⟨0xF0FF#16, 0xF065#16, fun f => .ldVxMem f.n1⟩]

/-- The 34 rows of R52, in the table's order. -/
def rom : List RomRow := romRows0to7 ++ romRows8 ++ romRows9toE ++ romRowsF

/-- `decode_rom(w)` (R67): the first row that selects `w`, with its fields sliced from `w`; UNKNOWN where none does. -/
def decodeRom (p : Config.Params) (w : Word) : Instr :=
  match rom.find? (·.selects w) with
  | some r => r.make (fields p (highByte w) (lowByte w))
  | none => .unknown

/-! ## Decoding a stream of bytes -/

/-- Why no instruction can be read from a list of bytes. -/
inductive DecodeError where
  /-- Fewer than two bytes: a partial word is not decoded (20_memory.md rules R30, R42). -/
  | partialWord
  deriving DecidableEq, Repr

/-- Reads one instruction from the front of a list of bytes: the first byte is `high` (R32), every word decodes (R55,
R64), and the rest of the bytes is given back. -/
def decodeBytes : List Byte → Except DecodeError (Instr × List Byte)
  | high :: low :: rest => .ok (decode high low, rest)
  | _ => .error .partialWord

/-- The instruction read from an instruction word whose bits are `w`, bits above `nbits` being 0: the word is laid out as
its two bytes, `high` first (R32). -/
def decodeTableWord (nbits w : Nat) : Option Instr :=
  if nbits ≤ 16 then
    match decodeBytes [highByte (BitVec.ofNat 16 (w % 2 ^ nbits)), lowByte (BitVec.ofNat 16 (w % 2 ^ nbits))] with
    | .ok (i, _) => some i
    | .error _ => none
  else none

/-! ## Variant ids and classes -/

/-- The 6-bit id of a variant on the `kind` port (R61; the "id" column of R17). -/
def Instr.kind (i : Instr) : BitVec 6 :=
  match i with
  | .unknown => 0
  | .cls => 1
  | .ret => 2
  | .jp _ => 3
  | .call _ => 4
  | .seImm _ _ => 5
  | .sneImm _ _ => 6
  | .seReg _ _ => 7
  | .ldImm _ _ => 8
  | .addImm _ _ => 9
  | .ldReg _ _ => 10
  | .or _ _ => 11
  | .and _ _ => 12
  | .xor _ _ => 13
  | .addReg _ _ => 14
  | .sub _ _ => 15
  | .shr _ _ => 16
  | .subn _ _ => 17
  | .shl _ _ => 18
  | .sneReg _ _ => 19
  | .ldI _ => 20
  | .jpV0 _ => 21
  | .rnd _ _ => 22
  | .drw _ _ _ => 23
  | .skp _ => 24
  | .sknp _ => 25
  | .ldVxDt _ => 26
  | .ldVxK _ => 27
  | .ldDtVx _ => 28
  | .ldStVx _ => 29
  | .addIVx _ => 30
  | .ldFVx _ => 31
  | .ldBVx _ => 32
  | .ldMemVx _ => 33
  | .ldVxMem _ => 34

/-- The class nibble of each known form (R47, R52); `unknown` is given class 0x0, one of the four it occurs in (R113). -/
def Instr.opcodeClass (i : Instr) : Nibble :=
  match i with
  | .unknown => 0x0
  | .cls => 0x0
  | .ret => 0x0
  | .jp _ => 0x1
  | .call _ => 0x2
  | .seImm _ _ => 0x3
  | .sneImm _ _ => 0x4
  | .seReg _ _ => 0x5
  | .ldImm _ _ => 0x6
  | .addImm _ _ => 0x7
  | .ldReg _ _ => 0x8
  | .or _ _ => 0x8
  | .and _ _ => 0x8
  | .xor _ _ => 0x8
  | .addReg _ _ => 0x8
  | .sub _ _ => 0x8
  | .shr _ _ => 0x8
  | .subn _ _ => 0x8
  | .shl _ _ => 0x8
  | .sneReg _ _ => 0x9
  | .ldI _ => 0xA
  | .jpV0 _ => 0xB
  | .rnd _ _ => 0xC
  | .drw _ _ _ => 0xD
  | .skp _ => 0xE
  | .sknp _ => 0xE
  | .ldVxDt _ => 0xF
  | .ldVxK _ => 0xF
  | .ldDtVx _ => 0xF
  | .ldStVx _ => 0xF
  | .addIVx _ => 0xF
  | .ldFVx _ => 0xF
  | .ldBVx _ => 0xF
  | .ldMemVx _ => 0xF
  | .ldVxMem _ => 0xF

/-! ## The model's encoder -/

/-- A byte pair from its four nibbles (R7). -/
def bytesOf (n0 n1 n2 n3 : Nibble) : Byte × Byte := (n0 ++ n1, n2 ++ n3)

/-- Format `A` (R47): class and address. -/
def bytesOfAddr (n0 : Nibble) (nnn : Addr) : Byte × Byte := (n0 ++ nnn.extractLsb' 8 4, nnn.extractLsb' 0 8)

/-- Formats `XK` and `XS` (R47): class, register, and the low byte (an immediate or a selector). -/
def bytesOfReg (n0 x : Nibble) (low : Byte) : Byte × Byte := (n0 ++ x, low)

/-- Format `SE` (R47, R49): the register is a nibble of the word only under `KEY_REG_SEL = n1`; else `n1` is ignored and
written as 0. -/
def bytesOfKey (p : Config.Params) (x : Nibble) (low : Byte) : Byte × Byte :=
  match p.keyRegSel with
  | .n3 => (0xE0#8, low)
  | .n1 => (0xE#4 ++ x, low)

/-- The two bytes of a well-formed instruction (R47, R52), ignored nibbles 0; for `unknown` the all-zero word, one of
its 13872 (R114). The hardware has no encoder (R4): this is the model's own, for the round trip. -/
def encodeWith (p : Config.Params) (i : Instr) : Byte × Byte :=
  match i with
  | .unknown => (0x00#8, 0x00#8)
  | .cls => (0x00#8, 0xE0#8)
  | .ret => (0x00#8, 0xEE#8)
  | .jp nnn => bytesOfAddr 0x1 nnn
  | .call nnn => bytesOfAddr 0x2 nnn
  | .seImm x kk => bytesOfReg 0x3 x kk
  | .sneImm x kk => bytesOfReg 0x4 x kk
  | .seReg x y => bytesOf 0x5 x y 0x0
  | .ldImm x kk => bytesOfReg 0x6 x kk
  | .addImm x kk => bytesOfReg 0x7 x kk
  | .ldReg x y => bytesOf 0x8 x y 0x0
  | .or x y => bytesOf 0x8 x y 0x1
  | .and x y => bytesOf 0x8 x y 0x2
  | .xor x y => bytesOf 0x8 x y 0x3
  | .addReg x y => bytesOf 0x8 x y 0x4
  | .sub x y => bytesOf 0x8 x y 0x5
  | .shr x y => bytesOf 0x8 x y 0x6
  | .subn x y => bytesOf 0x8 x y 0x7
  | .shl x y => bytesOf 0x8 x y 0xE
  | .sneReg x y => bytesOf 0x9 x y 0x0
  | .ldI nnn => bytesOfAddr 0xA nnn
  | .jpV0 nnn => bytesOfAddr 0xB nnn
  | .rnd x kk => bytesOfReg 0xC x kk
  | .drw x y n => bytesOf 0xD x y n
  | .skp x => bytesOfKey p x 0x9E
  | .sknp x => bytesOfKey p x 0xA1
  | .ldVxDt x => bytesOfReg 0xF x 0x07
  | .ldVxK x => bytesOfReg 0xF x 0x0A
  | .ldDtVx x => bytesOfReg 0xF x 0x15
  | .ldStVx x => bytesOfReg 0xF x 0x18
  | .addIVx x => bytesOfReg 0xF x 0x1E
  | .ldFVx x => bytesOfReg 0xF x 0x29
  | .ldBVx x => bytesOfReg 0xF x 0x33
  | .ldMemVx x => bytesOfReg 0xF x 0x55
  | .ldVxMem x => bytesOfReg 0xF x 0x65

/-- The two bytes of a well-formed instruction of this hardware. -/
def encode (i : Instr) : Byte × Byte := encodeWith Config.hardware i

/-- The 16-bit word of a well-formed instruction, `high` in bits 15..8 (R7). -/
def encodeWord (p : Config.Params) (i : Instr) : Word := (encodeWith p i).1 ++ (encodeWith p i).2

/-- The bits of a form's word that are fixed or are an operand: all but the ignored nibbles of R53. -/
def careMask (p : Config.Params) (i : Instr) : Word :=
  match i with
  | .unknown => 0x0000
  | .cls => 0xF0FF
  | .ret => 0xF0FF
  | .seReg _ _ => 0xFFF0
  | .sneReg _ _ => 0xFFF0
  | .skp _ => if p.keyRegSel = .n3 then 0xF0FF else 0xFFFF
  | .sknp _ => if p.keyRegSel = .n3 then 0xF0FF else 0xFFFF
  | .jp _ => 0xFFFF
  | .call _ => 0xFFFF
  | .seImm _ _ => 0xFFFF
  | .sneImm _ _ => 0xFFFF
  | .ldImm _ _ => 0xFFFF
  | .addImm _ _ => 0xFFFF
  | .ldReg _ _ => 0xFFFF
  | .or _ _ => 0xFFFF
  | .and _ _ => 0xFFFF
  | .xor _ _ => 0xFFFF
  | .addReg _ _ => 0xFFFF
  | .sub _ _ => 0xFFFF
  | .shr _ _ => 0xFFFF
  | .subn _ _ => 0xFFFF
  | .shl _ _ => 0xFFFF
  | .ldI _ => 0xFFFF
  | .jpV0 _ => 0xFFFF
  | .rnd _ _ => 0xFFFF
  | .drw _ _ _ => 0xFFFF
  | .ldVxDt _ => 0xFFFF
  | .ldVxK _ => 0xFFFF
  | .ldDtVx _ => 0xFFFF
  | .ldStVx _ => 0xFFFF
  | .addIVx _ => 0xFFFF
  | .ldFVx _ => 0xFFFF
  | .ldBVx _ => 0xFFFF
  | .ldMemVx _ => 0xFFFF
  | .ldVxMem _ => 0xFFFF

end Sys2Proof
end

