-- ==== Sys2Proof/Machine/Operands.lean ====
section
/-! DEFINITION. Every operand form of a rendered text (48_render.md sections 1 and 2), and the line prefix (R127). -/

namespace Sys2Proof.Machine

/-- `hexdigit(d)` (R119): `0`..`9`, then `a`..`f`, or `A`..`F` where `upper`. -/
def hexDigit (upper : Bool) (d : Nibble) : Byte :=
  if d.toNat < 10 then BitVec.ofNat 8 (0x30 + d.toNat)
  else if upper then BitVec.ofNat 8 (0x41 + (d.toNat - 10))
  else BitVec.ofNat 8 (0x61 + (d.toNat - 10))

/-- `hex1(v)` (R119): one digit. -/
def hex1 (upper : Bool) (v : Nibble) : Text := [hexDigit upper v]

/-- `hex2(v)` (R120): two digits, zero-padded. -/
def hex2 (upper : Bool) (v : Byte) : Text := [hexDigit upper (hiNibble v), hexDigit upper (loNibble v)]

/-- `hex4(v)` (R121): four digits, zero-padded. -/
def hex4 (upper : Bool) (v : Word) : Text := hex2 upper (highByte v) ++ hex2 upper (lowByte v)

/-- `hexmin(v)` (R122): the shortest spelling; zero is the one digit `0`. -/
def hexMin (upper : Bool) (v : Byte) : Text := if v.toNat < 16 then hex1 upper (loNibble v) else hex2 upper v

/-- Register operand `reg(x) = "V" ++ hex1(x)` (R123). -/
def reg (p : Config.Params) (x : Nibble) : Text := ascii ['V'] ++ hex1 p.operandHexUpper x

/-- Immediate operand `imm(kk) = hexmin(kk)` (R124). -/
def imm (p : Config.Params) (kk : Byte) : Text := hexMin p.operandHexUpper kk

/-- Address operand `addr(nnn) = hex1(nnn[11:8]) ++ hex2(nnn[7:0])` (R125). -/
def addr (p : Config.Params) (nnn : Addr) : Text :=
  hex1 p.operandHexUpper (nnn.extractLsb' 8 4) ++ hex2 p.operandHexUpper (nnn.extractLsb' 0 8)

/-- Count operand `cnt(n) = hex1(n)` (R135). -/
def cnt (p : Config.Params) (n : Nibble) : Text := hex1 p.operandHexUpper n

/-- One space (R126, R130). -/
def space : Text := ascii [' ']

/-- The separator of two operands, a comma and one space (R130). -/
def comma : Text := ascii [',', ' ']

/-- The prefix of the line (R127), always in lower case (R119): it depends on the raw inputs only. -/
def linePrefix (offset : Word) (high low : Byte) : Text :=
  hex4 false offset ++ space ++ hex2 false high ++ space ++ hex2 false low ++ space

end Sys2Proof.Machine
end

