-- ==== Sys2Proof/Machine/State.lean ====
section
/-! DEFINITION. The state of the system, as plain data. The decoder itself holds none (10_state.md rule R13); what survives
from one step to the next is the driver's: its `offset`, the byte buffer, the length of the program image and the lines it
has taken (R20, R27, R28, R160, R161). -/

namespace Sys2Proof.Machine

/-- The byte buffer (R25, R28, R29). `cells` lists the bytes the driver has placed, strictly rising in address; `size` is
`BUF_LEN`. An index below `size` that is not listed holds a free value (log 3). -/
structure Memory where
  cells : List Host.Cell
  size : Nat
  deriving DecidableEq, Repr

/-- Everything the system holds (R27). -/
structure State where
  /-- The driver's program counter (R20): an index into the buffer, which ends at 65536 at the most (D18; log 2). -/
  offset : Nat
  /-- The byte buffer (R28). -/
  mem : Memory
  /-- `LEN`, the number of program bytes at `BASE` (R6, R159). -/
  len : Nat
  /-- The lines the driver has taken, oldest first, without line breaks (R40, R132, R161; log 5). -/
  lines : List Text
  deriving DecidableEq, Repr

/-- The exception causes of the block. The spec's complete list is empty (60_exceptions.md rule R141), so this type has no
constructor: nothing raises a fault, and that is safe. -/
inductive Fault where
  deriving DecidableEq, Repr

/-- Why a step has no next state. -/
inductive Refusal where
  /-- Raised by `exec` alone, in the arm of an instruction without a meaning; no arm does. Safe: nothing is answered. -/
  | notModelled (mnemonic : String)
  /-- `refuse(out_of_buffer)`: raised by every decode call (a meaning, `nextInstr`, `decodeCall`) whose `offset` or
  `offset + 1` is no index of the buffer (20_memory.md rule R31). Safe: no result is answered where the spec gives none. -/
  | outOfBuffer
  /-- Raised by `nextInstr` for `step`: the driver's loop condition is false, so the run has ended (R160, R161). Safe: the
  spec gives the driver no further step. -/
  | runEnded
  deriving DecidableEq, Repr

/-- The system at its start (R27, R157): `offset = BASE`, no line taken. The spec gives no image: the model starts with the
empty program, so `LEN = 0` and `BUF_LEN = BASE` (DESIGN CHOICE, log 4). -/
def State.reset : State where
  offset := Config.base
  mem := ⟨[], Config.base⟩
  len := 0
  lines := []

end Sys2Proof.Machine
end

