-- ==== Sys2Proof/Machine/Ops.lean ====
section
/-! DEFINITION. The named operations over the buffer and the driver's state: reading and writing one byte, FETCH
(20_memory.md rule R30), the driver's loop condition (R40), the selection of the next instruction, and the emission of one
line with the advance of the offset (R160), which is the shared body of every instruction's meaning.

There is no operation that takes an exception or returns from one: the block has no exception, no trap and no interrupt
(60_exceptions.md rules R141, R144, R146, R147). -/

namespace Sys2Proof.Machine

/-! ## The buffer -/

/-- The byte listed at an address, if one is. -/
def cellAt (a : Nat) : List Host.Cell → Option Byte
  | [] => none
  | c :: cs => if c.1 = a then some c.2 else cellAt a cs

/-- The list with `v` at the address `a`, rising order kept. -/
def putCell (a : Nat) (v : Byte) : List Host.Cell → List Host.Cell
  | [] => [(a, v)]
  | c :: cs => if a < c.1 then (a, v) :: c :: cs else if a = c.1 then (a, v) :: cs else c :: putCell a v cs

/-- The canonical form of the buffer: addresses strictly rising, every listed address an index of the buffer, and
`BUF_LEN <= 65536` (R29). An unlisted address has no listed byte, so no entry can repeat what an unlisted one reads as. -/
abbrev Memory.wf (m : Memory) : Prop :=
  m.cells.Pairwise (fun c d => c.1 < d.1) ∧ (∀ c ∈ m.cells, c.1 < m.size) ∧ m.size ≤ Config.indexLimit

/-- What an index of the buffer holds: the byte the driver placed there, else a free value (R37; log 3). -/
def Memory.byteAt (m : Memory) (a : Nat) : Byte := (cellAt a m.cells).getD (Config.unspecifiedByte a)

/-- `a` is an index of the buffer (R29): below `BUF_LEN`, and of 16 bits. -/
def Memory.hasIndex (m : Memory) (a : Nat) : Bool := decide (a < m.size) && decide (a < Config.indexLimit)

/-- `MemRead(a, 1)` (R9, R29): defined exactly at the indices of the buffer. -/
def Memory.read (m : Memory) (a : Nat) : Option Byte := if m.hasIndex a then some (m.byteAt a) else none

/-- The driver or the environment puts one byte at an index of the buffer, between two calls (R43); the block never does
(R28). Elsewhere there is nothing to write. -/
def Memory.write (m : Memory) (a : Nat) (v : Byte) : Memory :=
  if m.hasIndex a then { m with cells := putCell a v m.cells } else m

/-- The buffer made at least `n` bytes long, as far as indices go (R29). -/
def Memory.grow (m : Memory) (n : Nat) : Memory := { m with size := max m.size (min n Config.indexLimit) }

/-- FETCH (R30): `high` at `offset`, `low` at `offset + 1`, computed without wrap (D18). No result where one of the two is
no index of the buffer (R31). -/
def Memory.fetch (m : Memory) (offset : Nat) : Option (Byte × Byte) :=
  match m.read offset, m.read (offset + 1) with
  | some high, some low => some (high, low)
  | _, _ => none

/-! ## The driver -/

/-- The driver's loop condition: `offset + 1 < BASE + LEN`, a complete word remains (R40, R160). -/
def State.enabled (s : State) : Bool := decide (s.offset + 1 < Config.base + s.len)

/-- The instruction the next step runs: none where the run has ended (R161), refused where the word is not in the buffer
(R31), else the decode of the two bytes at `offset` (R63). -/
def nextInstr (s : State) : Except Refusal Instr :=
  if s.enabled then
    match s.mem.fetch s.offset with
    | some (high, low) => .ok (decode high low)
    | none => .error .outOfBuffer
  else .error .runEnded

/-- The driver takes a line: `emit(line)` (R40). -/
def State.emit (s : State) (line : Text) : State := { s with lines := s.lines ++ [line] }

/-- The driver's `offset <- offset + 2`, the same after every variant (R21). -/
def State.advance (s : State) : State := { s with offset := s.offset + Config.wordBytes }

/-- One decode call of the driver whose fourth field is `text` (R126, R160): fetch the two raw bytes at `offset`, hand the
line to the driver, advance. Every meaning is this, with the text of its form. -/
def emitText (text : Text) (s : State) : Host.Outcome State Fault Refusal :=
  match s.mem.fetch s.offset with
  | some (high, low) => .next (s.emit (linePrefix (BitVec.ofNat 16 s.offset) high low ++ text)).advance
  | none => .refused .outOfBuffer

end Sys2Proof.Machine
end

