-- ==== Sys2Proof/Machine/Class0.lean ====
section
/-! DEFINITION. The text and the meaning of each form of 41_class_0.md: class 0x0, `CLS` and `RET` (rules R73, R74). -/

namespace Sys2Proof.Machine

/-- The rendered text of R73: `CLS`. -/
def textCls (_p : Config.Params) : Text := ascii ['C', 'L', 'S']

/-- R73: the line with that text is emitted, and the offset advances. -/
def execCls (s : State) : Host.Outcome State Fault Refusal :=
  emitText (textCls Config.hardware) s

/-- The rendered text of R74: `RET`. -/
def textRet (_p : Config.Params) : Text := ascii ['R', 'E', 'T']

/-- R74: the line with that text is emitted, and the offset advances. -/
def execRet (s : State) : Host.Outcome State Fault Refusal :=
  emitText (textRet Config.hardware) s

end Sys2Proof.Machine
end

