-- ==== Sys2Proof/Machine/Class1to7.lean ====
section
/-! DEFINITION. The text and the meaning of each form of 42_class_1_to_7.md: classes 0x1 to 0x7 (rules R76 to R82). Nothing is jumped to, called, compared, skipped,
loaded or added: the next offset is `offset + 2`. -/

namespace Sys2Proof.Machine

/-- The rendered text of R76: `JP ` addr(nnn). -/
def textJp (p : Config.Params) (nnn : Addr) : Text := ascii ['J', 'P', ' '] ++ addr p nnn

/-- R76: the line with that text is emitted, and the offset advances. -/
def execJp (nnn : Addr) (s : State) : Host.Outcome State Fault Refusal :=
  emitText (textJp Config.hardware nnn) s

/-- The rendered text of R77: `CALL ` addr(nnn). -/
def textCall (p : Config.Params) (nnn : Addr) : Text := ascii ['C', 'A', 'L', 'L', ' '] ++ addr p nnn

/-- R77: the line with that text is emitted, and the offset advances. -/
def execCall (nnn : Addr) (s : State) : Host.Outcome State Fault Refusal :=
  emitText (textCall Config.hardware nnn) s

/-- The rendered text of R78: `SE ` reg(x) `, ` imm(kk). -/
def textSeImm (p : Config.Params) (x : Nibble) (kk : Byte) : Text := ascii ['S', 'E', ' '] ++ reg p x ++ comma ++ imm p kk

/-- R78: the line with that text is emitted, and the offset advances. -/
def execSeImm (x : Nibble) (kk : Byte) (s : State) : Host.Outcome State Fault Refusal :=
  emitText (textSeImm Config.hardware x kk) s

/-- The rendered text of R79: `SNE ` reg(x) `, ` imm(kk). -/
def textSneImm (p : Config.Params) (x : Nibble) (kk : Byte) : Text := ascii ['S', 'N', 'E', ' '] ++ reg p x ++ comma ++ imm p kk

/-- R79: the line with that text is emitted, and the offset advances. -/
def execSneImm (x : Nibble) (kk : Byte) (s : State) : Host.Outcome State Fault Refusal :=
  emitText (textSneImm Config.hardware x kk) s

/-- The rendered text of R80: `SE ` reg(x) `, ` reg(y). -/
def textSeReg (p : Config.Params) (x : Nibble) (y : Nibble) : Text := ascii ['S', 'E', ' '] ++ reg p x ++ comma ++ reg p y

/-- R80: the line with that text is emitted, and the offset advances. -/
def execSeReg (x : Nibble) (y : Nibble) (s : State) : Host.Outcome State Fault Refusal :=
  emitText (textSeReg Config.hardware x y) s

/-- The rendered text of R81: `LD ` reg(x) `, ` imm(kk). -/
def textLdImm (p : Config.Params) (x : Nibble) (kk : Byte) : Text := ascii ['L', 'D', ' '] ++ reg p x ++ comma ++ imm p kk

/-- R81: the line with that text is emitted, and the offset advances. -/
def execLdImm (x : Nibble) (kk : Byte) (s : State) : Host.Outcome State Fault Refusal :=
  emitText (textLdImm Config.hardware x kk) s

/-- The rendered text of R82: `ADD ` reg(x) `, ` imm(kk). -/
def textAddImm (p : Config.Params) (x : Nibble) (kk : Byte) : Text := ascii ['A', 'D', 'D', ' '] ++ reg p x ++ comma ++ imm p kk

/-- R82: the line with that text is emitted, and the offset advances. -/
def execAddImm (x : Nibble) (kk : Byte) (s : State) : Host.Outcome State Fault Refusal :=
  emitText (textAddImm Config.hardware x kk) s

end Sys2Proof.Machine
end

