-- ==== Sys2Proof/Machine/Class8.lean ====
section
/-! DEFINITION. The text and the meaning of each form of 43_class_8.md: class 0x8, the arithmetic/logic family (rules R84 to R93). Nothing is computed; the shifts
print only `x`. -/

namespace Sys2Proof.Machine

/-- The rendered text of R85: `LD ` reg(x) `, ` reg(y). -/
def textLdReg (p : Config.Params) (x : Nibble) (y : Nibble) : Text := ascii ['L', 'D', ' '] ++ reg p x ++ comma ++ reg p y

/-- R85: the line with that text is emitted, and the offset advances. -/
def execLdReg (x : Nibble) (y : Nibble) (s : State) : Host.Outcome State Fault Refusal :=
  emitText (textLdReg Config.hardware x y) s

/-- The rendered text of R86: `OR ` reg(x) `, ` reg(y). -/
def textOr (p : Config.Params) (x : Nibble) (y : Nibble) : Text := ascii ['O', 'R', ' '] ++ reg p x ++ comma ++ reg p y

/-- R86: the line with that text is emitted, and the offset advances. -/
def execOr (x : Nibble) (y : Nibble) (s : State) : Host.Outcome State Fault Refusal :=
  emitText (textOr Config.hardware x y) s

/-- The rendered text of R87: `AND ` reg(x) `, ` reg(y). -/
def textAnd (p : Config.Params) (x : Nibble) (y : Nibble) : Text := ascii ['A', 'N', 'D', ' '] ++ reg p x ++ comma ++ reg p y

/-- R87: the line with that text is emitted, and the offset advances. -/
def execAnd (x : Nibble) (y : Nibble) (s : State) : Host.Outcome State Fault Refusal :=
  emitText (textAnd Config.hardware x y) s

/-- The rendered text of R88: `XOR ` reg(x) `, ` reg(y). -/
def textXor (p : Config.Params) (x : Nibble) (y : Nibble) : Text := ascii ['X', 'O', 'R', ' '] ++ reg p x ++ comma ++ reg p y

/-- R88: the line with that text is emitted, and the offset advances. -/
def execXor (x : Nibble) (y : Nibble) (s : State) : Host.Outcome State Fault Refusal :=
  emitText (textXor Config.hardware x y) s

/-- The rendered text of R89: `ADD ` reg(x) `, ` reg(y). -/
def textAddReg (p : Config.Params) (x : Nibble) (y : Nibble) : Text := ascii ['A', 'D', 'D', ' '] ++ reg p x ++ comma ++ reg p y

/-- R89: the line with that text is emitted, and the offset advances. -/
def execAddReg (x : Nibble) (y : Nibble) (s : State) : Host.Outcome State Fault Refusal :=
  emitText (textAddReg Config.hardware x y) s

/-- The rendered text of R90: `SUB ` reg(x) `, ` reg(y). -/
def textSub (p : Config.Params) (x : Nibble) (y : Nibble) : Text := ascii ['S', 'U', 'B', ' '] ++ reg p x ++ comma ++ reg p y

/-- R90: the line with that text is emitted, and the offset advances. -/
def execSub (x : Nibble) (y : Nibble) (s : State) : Host.Outcome State Fault Refusal :=
  emitText (textSub Config.hardware x y) s

/-- The rendered text of R91: `SHR ` reg(x). -/
def textShr (p : Config.Params) (x : Nibble) (_y : Nibble) : Text := ascii ['S', 'H', 'R', ' '] ++ reg p x

/-- R91: the line with that text is emitted, and the offset advances. -/
def execShr (x : Nibble) (y : Nibble) (s : State) : Host.Outcome State Fault Refusal :=
  emitText (textShr Config.hardware x y) s

/-- The rendered text of R92: `SUBN ` reg(x) `, ` reg(y). -/
def textSubn (p : Config.Params) (x : Nibble) (y : Nibble) : Text := ascii ['S', 'U', 'B', 'N', ' '] ++ reg p x ++ comma ++ reg p y

/-- R92: the line with that text is emitted, and the offset advances. -/
def execSubn (x : Nibble) (y : Nibble) (s : State) : Host.Outcome State Fault Refusal :=
  emitText (textSubn Config.hardware x y) s

/-- The rendered text of R93: `SHL ` reg(x). -/
def textShl (p : Config.Params) (x : Nibble) (_y : Nibble) : Text := ascii ['S', 'H', 'L', ' '] ++ reg p x

/-- R93: the line with that text is emitted, and the offset advances. -/
def execShl (x : Nibble) (y : Nibble) (s : State) : Host.Outcome State Fault Refusal :=
  emitText (textShl Config.hardware x y) s

end Sys2Proof.Machine
end

