-- ==== Sys2Proof/Machine/Class9toD.lean ====
section
/-! DEFINITION. The text and the meaning of each form of 44_class_9_to_D.md: classes 0x9 to 0xD (rules R94 to R98). Class 0x9 gives its own text once and nothing of
class 0xA (R70). -/

namespace Sys2Proof.Machine

/-- The rendered text of R94: `SNE ` reg(x) `, ` reg(y). -/
def textSneReg (p : Config.Params) (x : Nibble) (y : Nibble) : Text := ascii ['S', 'N', 'E', ' '] ++ reg p x ++ comma ++ reg p y

/-- R94: the line with that text is emitted, and the offset advances. -/
def execSneReg (x : Nibble) (y : Nibble) (s : State) : Host.Outcome State Fault Refusal :=
  emitText (textSneReg Config.hardware x y) s

/-- The rendered text of R95: `LD I, ` addr(nnn). -/
def textLdI (p : Config.Params) (nnn : Addr) : Text := ascii ['L', 'D', ' ', 'I', ',', ' '] ++ addr p nnn

/-- R95: the line with that text is emitted, and the offset advances. -/
def execLdI (nnn : Addr) (s : State) : Host.Outcome State Fault Refusal :=
  emitText (textLdI Config.hardware nnn) s

/-- The rendered text of R96: `JP V0, ` addr(nnn). -/
def textJpV0 (p : Config.Params) (nnn : Addr) : Text := ascii ['J', 'P', ' ', 'V', '0', ',', ' '] ++ addr p nnn

/-- R96: the line with that text is emitted, and the offset advances. -/
def execJpV0 (nnn : Addr) (s : State) : Host.Outcome State Fault Refusal :=
  emitText (textJpV0 Config.hardware nnn) s

/-- The rendered text of R97: `RND ` reg(x) `, ` imm(kk). -/
def textRnd (p : Config.Params) (x : Nibble) (kk : Byte) : Text := ascii ['R', 'N', 'D', ' '] ++ reg p x ++ comma ++ imm p kk

/-- R97: the line with that text is emitted, and the offset advances. -/
def execRnd (x : Nibble) (kk : Byte) (s : State) : Host.Outcome State Fault Refusal :=
  emitText (textRnd Config.hardware x kk) s

/-- The rendered text of R98: `DRW ` reg(x) `, ` reg(y) `, ` cnt(n). -/
def textDrw (p : Config.Params) (x : Nibble) (y : Nibble) (n : Nibble) : Text := ascii ['D', 'R', 'W', ' '] ++ reg p x ++ comma ++ reg p y ++ comma ++ cnt p n

/-- R98: the line with that text is emitted, and the offset advances. -/
def execDrw (x : Nibble) (y : Nibble) (n : Nibble) (s : State) : Host.Outcome State Fault Refusal :=
  emitText (textDrw Config.hardware x y n) s

end Sys2Proof.Machine
end

