-- ==== Sys2Proof/Machine/ClassE.lean ====
section
/-! DEFINITION. The text and the meaning of each form of 45_class_E.md: class 0xE (rules R100 to R102). No key is sampled and nothing is skipped. -/

namespace Sys2Proof.Machine

/-- The rendered text of R101: `SKP ` reg(x). -/
def textSkp (p : Config.Params) (x : Nibble) : Text := ascii ['S', 'K', 'P', ' '] ++ reg p x

/-- R101: the line with that text is emitted, and the offset advances. -/
def execSkp (x : Nibble) (s : State) : Host.Outcome State Fault Refusal :=
  emitText (textSkp Config.hardware x) s

/-- The rendered text of R102: `SKNP ` reg(x). -/
def textSknp (p : Config.Params) (x : Nibble) : Text := ascii ['S', 'K', 'N', 'P', ' '] ++ reg p x

/-- R102: the line with that text is emitted, and the offset advances. -/
def execSknp (x : Nibble) (s : State) : Host.Outcome State Fault Refusal :=
  emitText (textSknp Config.hardware x) s

end Sys2Proof.Machine
end

