-- ==== Sys2Proof/Machine/ClassF.lean ====
section
/-! DEFINITION. The text and the meaning of each form of 46_class_F.md: class 0xF, timer, index, BCD and memory-block forms (rules R103 to R112). Nothing is read,
waited for, added, stored or loaded. -/

namespace Sys2Proof.Machine

/-- The rendered text of R104: `LD ` reg(x) `, DT`. -/
def textLdVxDt (p : Config.Params) (x : Nibble) : Text := ascii ['L', 'D', ' '] ++ reg p x ++ ascii [',', ' ', 'D', 'T']

/-- R104: the line with that text is emitted, and the offset advances. -/
def execLdVxDt (x : Nibble) (s : State) : Host.Outcome State Fault Refusal :=
  emitText (textLdVxDt Config.hardware x) s

/-- The rendered text of R105: `LD ` reg(x) `, K`. -/
def textLdVxK (p : Config.Params) (x : Nibble) : Text := ascii ['L', 'D', ' '] ++ reg p x ++ ascii [',', ' ', 'K']

/-- R105: the line with that text is emitted, and the offset advances. -/
def execLdVxK (x : Nibble) (s : State) : Host.Outcome State Fault Refusal :=
  emitText (textLdVxK Config.hardware x) s

/-- The rendered text of R106: `LD DT, ` reg(x). -/
def textLdDtVx (p : Config.Params) (x : Nibble) : Text := ascii ['L', 'D', ' ', 'D', 'T', ',', ' '] ++ reg p x

/-- R106: the line with that text is emitted, and the offset advances. -/
def execLdDtVx (x : Nibble) (s : State) : Host.Outcome State Fault Refusal :=
  emitText (textLdDtVx Config.hardware x) s

/-- The rendered text of R107: `LD ST, ` reg(x). -/
def textLdStVx (p : Config.Params) (x : Nibble) : Text := ascii ['L', 'D', ' ', 'S', 'T', ',', ' '] ++ reg p x

/-- R107: the line with that text is emitted, and the offset advances. -/
def execLdStVx (x : Nibble) (s : State) : Host.Outcome State Fault Refusal :=
  emitText (textLdStVx Config.hardware x) s

/-- The rendered text of R108: `ADD I, ` reg(x). -/
def textAddIVx (p : Config.Params) (x : Nibble) : Text := ascii ['A', 'D', 'D', ' ', 'I', ',', ' '] ++ reg p x

/-- R108: the line with that text is emitted, and the offset advances. -/
def execAddIVx (x : Nibble) (s : State) : Host.Outcome State Fault Refusal :=
  emitText (textAddIVx Config.hardware x) s

/-- The rendered text of R109: `LD F, ` reg(x). -/
def textLdFVx (p : Config.Params) (x : Nibble) : Text := ascii ['L', 'D', ' ', 'F', ',', ' '] ++ reg p x

/-- R109: the line with that text is emitted, and the offset advances. -/
def execLdFVx (x : Nibble) (s : State) : Host.Outcome State Fault Refusal :=
  emitText (textLdFVx Config.hardware x) s

/-- The rendered text of R110: `LD B, ` reg(x). -/
def textLdBVx (p : Config.Params) (x : Nibble) : Text := ascii ['L', 'D', ' ', 'B', ',', ' '] ++ reg p x

/-- R110: the line with that text is emitted, and the offset advances. -/
def execLdBVx (x : Nibble) (s : State) : Host.Outcome State Fault Refusal :=
  emitText (textLdBVx Config.hardware x) s

/-- The rendered text of R111: `LD [I], ` reg(x). -/
def textLdMemVx (p : Config.Params) (x : Nibble) : Text := ascii ['L', 'D', ' ', '[', 'I', ']', ',', ' '] ++ reg p x

/-- R111: the line with that text is emitted, and the offset advances. -/
def execLdMemVx (x : Nibble) (s : State) : Host.Outcome State Fault Refusal :=
  emitText (textLdMemVx Config.hardware x) s

/-- The rendered text of R112: `LD ` reg(x) `, [I]`. -/
def textLdVxMem (p : Config.Params) (x : Nibble) : Text := ascii ['L', 'D', ' '] ++ reg p x ++ ascii [',', ' ', '[', 'I', ']']

/-- R112: the line with that text is emitted, and the offset advances. -/
def execLdVxMem (x : Nibble) (s : State) : Host.Outcome State Fault Refusal :=
  emitText (textLdVxMem Config.hardware x) s

end Sys2Proof.Machine
end

