-- ==== Sys2Proof/Machine/Unknown.lean ====
section
/-! DEFINITION. The text and the meaning of the `UNKNOWN` variant (47_unknown.md rules R113, R118): not an error, no
stop; the line is emitted and the offset advances as after a known form. -/

namespace Sys2Proof.Machine

/-- The rendered text of R113: `UNKNOWN_TEXT`. -/
def textUnknown (p : Config.Params) : Text := p.unknownText

/-- R113, R118: the line with that text is emitted, and the offset advances. -/
def execUnknown (s : State) : Host.Outcome State Fault Refusal :=
  emitText (textUnknown Config.hardware) s

end Sys2Proof.Machine
end

