-- ==== Sys2Proof/Machine/Render.lean ====
section
/-! DEFINITION. RENDER as a whole (48_render.md): the fourth field chosen by the case alone (R128, R129), and the line
(R126). Both are total (R136). -/

namespace Sys2Proof.Machine

/-- `render_text(d)` (R128, R129): one template per case. -/
def renderText (p : Config.Params) (d : Instr) : Text :=
  match d with
  | .cls => textCls p
  | .ret => textRet p
  | .jp nnn => textJp p nnn
  | .call nnn => textCall p nnn
  | .seImm x kk => textSeImm p x kk
  | .sneImm x kk => textSneImm p x kk
  | .seReg x y => textSeReg p x y
  | .ldImm x kk => textLdImm p x kk
  | .addImm x kk => textAddImm p x kk
  | .ldReg x y => textLdReg p x y
  | .or x y => textOr p x y
  | .and x y => textAnd p x y
  | .xor x y => textXor p x y
  | .addReg x y => textAddReg p x y
  | .sub x y => textSub p x y
  | .shr x y => textShr p x y
  | .subn x y => textSubn p x y
  | .shl x y => textShl p x y
  | .sneReg x y => textSneReg p x y
  | .ldI nnn => textLdI p nnn
  | .jpV0 nnn => textJpV0 p nnn
  | .rnd x kk => textRnd p x kk
  | .drw x y n => textDrw p x y n
  | .skp x => textSkp p x
  | .sknp x => textSknp p x
  | .ldVxDt x => textLdVxDt p x
  | .ldVxK x => textLdVxK p x
  | .ldDtVx x => textLdDtVx p x
  | .ldStVx x => textLdStVx p x
  | .addIVx x => textAddIVx p x
  | .ldFVx x => textLdFVx p x
  | .ldBVx x => textLdBVx p x
  | .ldMemVx x => textLdMemVx p x
  | .ldVxMem x => textLdVxMem p x
  | .unknown => textUnknown p

/-- `render_line(offset, high, low, d)` (R126), without a line break (R132). -/
def renderLine (p : Config.Params) (offset : Word) (high low : Byte) (d : Instr) : Text :=
  linePrefix offset high low ++ renderText p d

end Sys2Proof.Machine
end

