-- ==== Sys2Proof/Machine/Driver.lean ====
section
/-! DEFINITION. What the driver and the environment may do beside the loop's step (70_reset_and_hazards.md rules R159,
R165; 20_memory.md rule R43): load an image, call decode at any offset, change a byte between two calls, start a run
again. -/

namespace Sys2Proof.Machine

/-- One decode call (R63, R165) at any 16-bit offset, even or odd, below `BASE` or above: the variant and the line. It has
no effect on any state. Refused where a byte of the word is not in the buffer (R31). -/
def decodeCall (m : Memory) (offset : Word) : Except Refusal (Instr × Text) :=
  match m.fetch offset.toNat with
  | some (high, low) =>
    .ok (decode high low, renderLine Config.hardware offset high low (decode high low))
  | none => .error .outOfBuffer

/-- The environment changes one byte of the buffer between two calls (R43, D14). -/
def State.pokeByte (s : State) (a : Nat) (v : Byte) : State := { s with mem := s.mem.write a v }

/-- The cells of an image placed from the index `a` on (R36: program byte `i` is at index `BASE + i`). -/
def imageCells : Nat → List Byte → List Host.Cell
  | _, [] => []
  | a, b :: bs => (a, b) :: imageCells (a + 1) bs

/-- The driver's start on an image (R159): the image at `BASE`, `BUF_LEN = BASE + LEN`, `offset <- BASE`, no line taken yet;
bytes below `BASE` stay as they are (R37). None where the image does not fit the 16-bit indices (R6). -/
def State.load (s : State) (image : List Byte) : Option State :=
  if Config.base + image.length ≤ Config.indexLimit then
    some
      { offset := Config.base
        mem :=
          { cells := s.mem.cells.filter (fun c => decide (c.1 < Config.base)) ++ imageCells Config.base image
            size := Config.base + image.length }
        len := image.length
        lines := [] }
  else none

/-- The driver runs again over the buffer as it stands (P7 of 95_test_vectors.md, R157): `offset <- BASE`, lines anew. -/
def State.restart (s : State) : State := { s with offset := Config.base, lines := [] }

end Sys2Proof.Machine
end

