-- ==== Sys2Proof/Machine/Step.lean ====
section
/-! DEFINITION. One step of the system (70_reset_and_hazards.md rule R160): one iteration of the driver's loop. -/

namespace Sys2Proof.Machine

/-- One iteration of R40's loop: the meaning of the instruction at `offset`, or the reason there is none. -/
def step (s : State) : Host.Outcome State Fault Refusal :=
  match nextInstr s with
  | .ok i => exec i s
  | .error r => .refused r

/-- `s` with the instruction word `w` (its bits above `nbits` 0) at `offset`, `high` first (R32), and `LEN` and `BUF_LEN`
large enough that the driver's loop is enabled there (R40, R159). It stands for the driver's load (log 6). At an offset
where no word can stand (R31) nothing is changed. -/
def State.withFetchWord (s : State) (nbits w : Nat) : State :=
  if s.offset + 1 < Config.indexLimit then
    { s with
      mem := ((s.mem.grow (s.offset + 2)).write s.offset (highByte (BitVec.ofNat 16 (w % 2 ^ nbits)))).write
        (s.offset + 1) (lowByte (BitVec.ofNat 16 (w % 2 ^ nbits)))
      len := max s.len (s.offset + 2 - Config.base) }
  else s

end Sys2Proof.Machine
end

