-- ==== Sys2Proof/Machine/Flags.lean ====
section
/-! DEFINITION. Flags: the block has none, and no form writes one (10_state.md rule R22, 40_dispatch.md rule R71). The one
bit that looks like a flag is the output port `unknown`, a function of the current word that nothing latches (R15, R22). -/

namespace Sys2Proof.Machine

/-- The output port `unknown`: 1 exactly when `kind == 0` (R15). -/
def unknownOutput (kind : BitVec 6) : Bool := kind == 0

end Sys2Proof.Machine
end

