-- ==== Sys2Proof/Machine/Ports.lean ====
section
/-! DEFINITION. The wires of the three sub-blocks (10_state.md rules R14, R15, R16), as functions of the inputs of the same
call: nothing is latched (R13, R156). -/

namespace Sys2Proof.Machine

/-- The outputs of FETCH and the buffer's answers (R14). -/
structure FetchPorts where
  bufAddr0 : Word
  bufAddr1 : Word
  bufData0 : Byte
  bufData1 : Byte
  high : Byte
  low : Byte
  deriving DecidableEq, Repr

/-- The outputs of DECODE (R15). -/
structure DecodePorts where
  kind : BitVec 6
  unknown : Bool
  x : Nibble
  y : Nibble
  n : Nibble
  kk : Byte
  nnn : Addr
  deriving DecidableEq, Repr

/-- The outputs of RENDER (R16). -/
structure RenderPorts where
  line : Text
  lineLen : BitVec 5
  deriving DecidableEq, Repr

/-- FETCH (R14, R30): no outputs for a call outside the buffer (R31). -/
def fetchPorts (m : Memory) (offset : Word) : Option FetchPorts :=
  match m.fetch offset.toNat with
  | some (high, low) => some
      { bufAddr0 := offset, bufAddr1 := offset + 1, bufData0 := high, bufData1 := low, high := high, low := low }
  | none => none

/-- The `x` port (R15): `n1`, but the `key` nibble for the two class-0xE kinds (R49). -/
def xPort (f : Fields) (i : Instr) : Nibble := if i.kind = 24 ∨ i.kind = 25 then f.key else f.n1

/-- DECODE on its wires (R15): a field port carries its raw slice of the word, whether or not the kind carries the field
(D9). -/
def decodePorts (p : Config.Params) (high low : Byte) : DecodePorts :=
  let f := fields p high low
  let i := decodeWith p high low
  { kind := i.kind, unknown := unknownOutput i.kind, x := xPort f i, y := f.n2, n := f.n3, kk := f.low, nnn := f.nnn }

/-- The variant value that the wires carry (R15, R17, R61): none for the values 35 to 63 of `kind`, which never appear. -/
def DecodePorts.variant (d : DecodePorts) : Option Instr :=
  match d.kind.toNat with
  | 0 => some .unknown
  | 1 => some .cls
  | 2 => some .ret
  | 3 => some (.jp d.nnn)
  | 4 => some (.call d.nnn)
  | 5 => some (.seImm d.x d.kk)
  | 6 => some (.sneImm d.x d.kk)
  | 7 => some (.seReg d.x d.y)
  | 8 => some (.ldImm d.x d.kk)
  | 9 => some (.addImm d.x d.kk)
  | 10 => some (.ldReg d.x d.y)
  | 11 => some (.or d.x d.y)
  | 12 => some (.and d.x d.y)
  | 13 => some (.xor d.x d.y)
  | 14 => some (.addReg d.x d.y)
  | 15 => some (.sub d.x d.y)
  | 16 => some (.shr d.x d.y)
  | 17 => some (.subn d.x d.y)
  | 18 => some (.shl d.x d.y)
  | 19 => some (.sneReg d.x d.y)
  | 20 => some (.ldI d.nnn)
  | 21 => some (.jpV0 d.nnn)
  | 22 => some (.rnd d.x d.kk)
  | 23 => some (.drw d.x d.y d.n)
  | 24 => some (.skp d.x)
  | 25 => some (.sknp d.x)
  | 26 => some (.ldVxDt d.x)
  | 27 => some (.ldVxK d.x)
  | 28 => some (.ldDtVx d.x)
  | 29 => some (.ldStVx d.x)
  | 30 => some (.addIVx d.x)
  | 31 => some (.ldFVx d.x)
  | 32 => some (.ldBVx d.x)
  | 33 => some (.ldMemVx d.x)
  | 34 => some (.ldVxMem d.x)
  | _ => none

/-- RENDER on its wires (R16): it reads the kind and the fields the kind carries (R128), and gives the line and its length
in characters; none for a `kind` that never appears. -/
def renderPorts (p : Config.Params) (offset : Word) (high low : Byte) (d : DecodePorts) : Option RenderPorts :=
  match d.variant with
  | some i =>
    let line := renderLine p offset high low i
    some { line := line, lineLen := BitVec.ofNat 5 line.length }
  | none => none

/-- The whole block on its wires, FETCH, DECODE and RENDER in series (R2): what the ports show for one decode call. -/
def blockPorts (p : Config.Params) (m : Memory) (offset : Word) : Option (FetchPorts × DecodePorts × RenderPorts) :=
  match fetchPorts m offset with
  | some f =>
    match renderPorts p offset f.high f.low (decodePorts p f.high f.low) with
    | some r => some (f, decodePorts p f.high f.low, r)
    | none => none
  | none => none

end Sys2Proof.Machine
end

