-- ==== Sys2Proof/Safety.lean ====
section
/-! DEFINITION. What counts as a good state of the driver (20_memory.md rule R40, 70_reset_and_hazards.md rules R160, R161):
the conditions that claims about the machine are stated in. -/

namespace Sys2Proof.Machine

/-- Both bytes of the word at `offset` are indices of the buffer: the precondition of a decode call (R31). -/
abbrev State.CallOk (s : State) : Prop := s.offset + 1 < s.mem.size ∧ s.offset + 1 < Config.indexLimit

/-- The line the block gives for the word at index `a` of a buffer (R126, R161). -/
def lineAt (m : Memory) (a : Nat) : Text :=
  renderLine Config.hardware (BitVec.ofNat 16 a) (m.byteAt a) (m.byteAt (a + 1)) (decode (m.byteAt a) (m.byteAt (a + 1)))

/-- The lines of the `k` words from `BASE` on, in ascending order of offset (R161). -/
def listing (m : Memory) (k : Nat) : List Text := (List.range k).map fun j => lineAt m (Config.base + 2 * j)

/-- The image fits the buffer (R159): the buffer is well formed and `BUF_LEN >= BASE + LEN`. -/
abbrev State.ImageFits (s : State) : Prop := s.mem.wf ∧ Config.base + s.len ≤ s.mem.size

/-- The driver's invariant: the image fits; the offset is `BASE` plus 2 for every line taken (so it is even and at or above
`BASE`), never past the last complete word (R21, R40, R42); and the lines taken are the listing of the words passed (R161). -/
abbrev State.DriverInv (s : State) : Prop :=
  s.ImageFits ∧ s.offset = Config.base + 2 * s.lines.length ∧ 2 * s.lines.length ≤ s.len ∧
    s.lines = listing s.mem s.lines.length

end Sys2Proof.Machine
end

