-- ==== Sys2Proof/Certificates/Slice0/Obligations.lean ====
section
/-! DEFINITION. The statements for the provers. The spellings of numbers and lines are written here a second time, over
natural numbers, so that a statement about a text does not repeat the model's own functions. -/

namespace Sys2Proof.Claims

open Sys2Proof.Machine

/-- The ASCII code of a hexadecimal digit in lower case: 0x30 to 0x39, 0x61 to 0x66 (R119). -/
def digit (d : Nat) : Byte := BitVec.ofNat 8 (if d < 10 then 48 + d else 87 + d)

/-- A number in a fixed count of hexadecimal digits, zero-padded (R120, R121). -/
def hexOf : Nat → Nat → Text
  | 0, _ => []
  | k + 1, v => hexOf k (v / 16) ++ [digit (v % 16)]

/-- The shortest spelling of a number below 256 (R122). -/
def hexShort (v : Nat) : Text := if v < 16 then hexOf 1 v else hexOf 2 v

/-- `V` and one digit (R123). -/
def regText (x : Nibble) : Text := [0x56#8] ++ hexOf 1 x.toNat

/-- Three digits (R125). -/
def addrText (nnn : Addr) : Text := hexOf 3 nnn.toNat

/-- Operand digits in the case `OPERAND_HEX_UPPER` selects (R119): 0x61 to 0x66 become 0x41 to 0x46. -/
def inCase (p : Config.Params) (t : Text) : Text :=
  if p.operandHexUpper then t.map fun c => if 0x61 ≤ c.toNat then c - 0x20#8 else c else t

/-- The first 11 characters of a line (R127). -/
def prefixText (offset high low : Nat) : Text :=
  hexOf 4 offset ++ [0x20#8] ++ hexOf 2 high ++ [0x20#8] ++ hexOf 2 low ++ [0x20#8]

/-- The two bytes at the driver's offset. -/
def highAt (s : State) : Byte := s.mem.byteAt s.offset
def lowAt (s : State) : Byte := s.mem.byteAt (s.offset + 1)

/-- The line whose fourth field is `text`, for the word at the driver's offset (R126). -/
def lineFor (s : State) (text : Text) : Text := prefixText s.offset (highAt s).toNat (lowAt s).toNat ++ text

/-- The state after one step that emitted that line (R21, R28, R160): offset plus 2, the line taken, all else as before. -/
def after (s : State) (text : Text) : State where
  offset := s.offset + 2
  mem := s.mem
  len := s.len
  lines := s.lines ++ [lineFor s text]

/-- How many of the 4096 words of class `c` are UNKNOWN (R117): for each `n1`, the count over the 256 low bytes. -/
def unknownWords (c : Nat) : Nat :=
  ((List.range 16).map fun n1 => (List.range 256).countP fun low =>
    decode (BitVec.ofNat 4 c ++ BitVec.ofNat 4 n1) (BitVec.ofNat 8 low) == .unknown).sum

/-- The characters of R131, as ASCII codes: digits, `a` to `f`, the 21 upper-case letters, space, comma, brackets. -/
def lineCharacters : Text :=
  ascii ['0', '1', '2', '3', '4', '5', '6', '7', '8', '9', 'a', 'b', 'c', 'd', 'e', 'f'] ++
  ascii ['A', 'B', 'C', 'D', 'E', 'F', 'H', 'I', 'J', 'K', 'L', 'N', 'O', 'P', 'R', 'S', 'T', 'U', 'V', 'W', 'X'] ++
  [0x20#8, 0x2C#8, 0x5B#8, 0x5D#8]

end Sys2Proof.Claims

open Sys2Proof Sys2Proof.Machine Sys2Proof.Claims

/-! ## Decode -/

/-- R47 to R52: decode of the model's own encode (log 12) of a well-formed instruction is it, for every variant, operand value
and setting of the parameters. -/
def Obligations.DecodeOfEncodeIsTheInstruction : Prop :=
  ∀ (p : Config.Params) (i : Instr), i.wellFormed p = true →
    decodeWith p (encodeWith p i).1 (encodeWith p i).2 = i

/-- R47, R48, R53: the word of a known form is the encoding of its variant, but for the ignored nibbles. The encoder, which
writes ignored nibbles as 0, and `careMask` are the model's choice (log 12): the spec gives no encoder. -/
def Obligations.DecodedWordKeepsEveryTestedBit : Prop :=
  ∀ (p : Config.Params) (high low : Byte), decodeWith p high low ≠ .unknown →
    encodeWord p (decodeWith p high low) = (high ++ low) &&& careMask p (decodeWith p high low)

/-- R49, R100: every word decodes to a well-formed variant. -/
def Obligations.DecodeGivesWellFormedVariants : Prop :=
  ∀ (p : Config.Params) (high low : Byte), (decodeWith p high low).wellFormed p = true

/-- R66: the two-level dispatch, written out for the four nibbles of the word, under every setting of `KEY_REG_SEL`. -/
def Obligations.DispatchFollowsClassAndSelector : Prop :=
  ∀ (p : Config.Params) (n1 n2 n3 : Nibble),
    let low : Byte := n2 ++ n3
    let nnn : Addr := n1 ++ low
    let key : Nibble := if p.keyRegSel = .n3 then n3 else n1
    decodeWith p (0x0#4 ++ n1) low = (if low = 0xE0 then .cls else if low = 0xEE then .ret else .unknown) ∧
    decodeWith p (0x1#4 ++ n1) low = .jp nnn ∧
    decodeWith p (0x2#4 ++ n1) low = .call nnn ∧
    decodeWith p (0x3#4 ++ n1) low = .seImm n1 low ∧
    decodeWith p (0x4#4 ++ n1) low = .sneImm n1 low ∧
    decodeWith p (0x5#4 ++ n1) low = .seReg n1 n2 ∧
    decodeWith p (0x6#4 ++ n1) low = .ldImm n1 low ∧
    decodeWith p (0x7#4 ++ n1) low = .addImm n1 low ∧
    decodeWith p (0x8#4 ++ n1) low =
      (if n3 = 0x0 then .ldReg n1 n2 else if n3 = 0x1 then .or n1 n2 else if n3 = 0x2 then .and n1 n2
      else if n3 = 0x3 then .xor n1 n2 else if n3 = 0x4 then .addReg n1 n2 else if n3 = 0x5 then .sub n1 n2
      else if n3 = 0x6 then .shr n1 n2 else if n3 = 0x7 then .subn n1 n2 else if n3 = 0xE then .shl n1 n2
      else .unknown) ∧
    decodeWith p (0x9#4 ++ n1) low = .sneReg n1 n2 ∧
    decodeWith p (0xA#4 ++ n1) low = .ldI nnn ∧
    decodeWith p (0xB#4 ++ n1) low = .jpV0 nnn ∧
    decodeWith p (0xC#4 ++ n1) low = .rnd n1 low ∧
    decodeWith p (0xD#4 ++ n1) low = .drw n1 n2 n3 ∧
    decodeWith p (0xE#4 ++ n1) low = (if low = 0x9E then .skp key else if low = 0xA1 then .sknp key else .unknown) ∧
    decodeWith p (0xF#4 ++ n1) low =
      (if low = 0x07 then .ldVxDt n1 else if low = 0x0A then .ldVxK n1 else if low = 0x15 then .ldDtVx n1
      else if low = 0x18 then .ldStVx n1 else if low = 0x1E then .addIVx n1 else if low = 0x29 then .ldFVx n1
      else if low = 0x33 then .ldBVx n1 else if low = 0x55 then .ldMemVx n1 else if low = 0x65 then .ldVxMem n1
      else .unknown)

/-- R67: the ROM form gives, for every word, what the dispatch gives. -/
def Obligations.RomFormEqualsDispatch : Prop :=
  ∀ (p : Config.Params) (high low : Byte), decodeRom p (high ++ low) = decodeWith p high low

/-- R54: no two of the 34 rows select one word. -/
def Obligations.RomRowsNeverSelectOneWordTwice : Prop :=
  rom.length = 34 ∧ rom.Pairwise fun r r' => ∀ w : Word, ¬ (r.selects w = true ∧ r'.selects w = true)

/-- R113 to R116: a word is UNKNOWN exactly where its class is 0x0, 0x8, 0xE or 0xF and its selector is not assigned. -/
def Obligations.UnknownExactlyForUnassignedSelectors : Prop :=
  ∀ (p : Config.Params) (high low : Byte), decodeWith p high low = .unknown ↔
    (hiNibble high = 0x0 ∧ low ∉ [0xE0#8, 0xEE#8]) ∨
    (hiNibble high = 0x8 ∧ loNibble low ∈ [0x8#4, 0x9#4, 0xA#4, 0xB#4, 0xC#4, 0xD#4, 0xF#4]) ∨
    (hiNibble high = 0xE ∧ low ∉ [0x9E#8, 0xA1#8]) ∨
    (hiNibble high = 0xF ∧ low ∉ [0x07#8, 0x0A#8, 0x15#8, 0x18#8, 0x1E#8, 0x29#8, 0x33#8, 0x55#8, 0x65#8])

/-- R117: the number of UNKNOWN words of each class, and in all. -/
def Obligations.UnknownWordCountsPerClass : Prop :=
  (List.range 16).map unknownWords = [4064, 0, 0, 0, 0, 0, 0, 0, 1792, 0, 0, 0, 0, 0, 4064, 3952] ∧
  ((List.range 16).map unknownWords).sum = 13872

/-- R53: the ignored nibbles (`n1` in classes 0x0 and 0xE, `n3` in classes 0x5 and 0x9) change no decode, and `y` of the
two shifts is extracted and not printed. The clause on class 0xE holds under this hardware's `KEY_REG_SEL = n3`, the spec's
decision D4 between two readings (log 9). -/
def Obligations.IgnoredNibblesChangeNothing : Prop :=
  (∀ n1 : Nibble, decode (0x0#4 ++ n1) 0xE0#8 = .cls ∧ decode (0x0#4 ++ n1) 0xEE#8 = .ret) ∧
  (∀ (n1 n1' : Nibble) (low : Byte), decode (0x0#4 ++ n1) low = decode (0x0#4 ++ n1') low) ∧
  (∀ (n1 n1' : Nibble) (low : Byte), decode (0xE#4 ++ n1) low = decode (0xE#4 ++ n1') low) ∧
  (∀ x y n3 : Nibble, decode (0x5#4 ++ x) (y ++ n3) = .seReg x y ∧ decode (0x9#4 ++ x) (y ++ n3) = .sneReg x y) ∧
  (∀ x y : Nibble, decode (0x8#4 ++ x) (y ++ 0x6#4) = .shr x y ∧ decode (0x8#4 ++ x) (y ++ 0xE#4) = .shl x y) ∧
  (∀ (p : Config.Params) (x y y' : Nibble), renderText p (.shr x y) = renderText p (.shr x y') ∧
    renderText p (.shl x y) = renderText p (.shl x y'))

/-- R51: the address of the four address classes is `(n1 << 8) | low`, and not built from the class nibble. -/
def Obligations.AddressTakesLowNibbleOfFirstByte : Prop :=
  (∀ (n1 : Nibble) (low : Byte),
    decode (0x1#4 ++ n1) low = .jp (BitVec.ofNat 12 (n1.toNat * 256 + low.toNat)) ∧
    decode (0x2#4 ++ n1) low = .call (BitVec.ofNat 12 (n1.toNat * 256 + low.toNat)) ∧
    decode (0xA#4 ++ n1) low = .ldI (BitVec.ofNat 12 (n1.toNat * 256 + low.toNat)) ∧
    decode (0xB#4 ++ n1) low = .jpV0 (BitVec.ofNat 12 (n1.toNat * 256 + low.toNat))) ∧
  decode 0x12#8 0x34#8 = .jp 0x234#12 ∧ decode 0x12#8 0x00#8 = .jp 0x200#12

/-- R49: under `KEY_REG_SEL = n3`, this hardware's value, the register of `SKP` is always 0xE and that of `SKNP` always 0x1;
under `n1` it is `n1`; no other word's decode depends on any parameter. That this hardware's value is `n3` is the spec's
decision D4 between two readings (log 9). -/
def Obligations.KeyRegisterFollowsSelectorNibble : Prop :=
  Config.hardware.keyRegSel = .n3 ∧
  (∀ (p : Config.Params) (n1 : Nibble), p.keyRegSel = .n3 →
    decodeWith p (0xE#4 ++ n1) 0x9E#8 = .skp 0xE ∧ decodeWith p (0xE#4 ++ n1) 0xA1#8 = .sknp 0x1) ∧
  (∀ (p : Config.Params) (n1 : Nibble), p.keyRegSel = .n1 →
    decodeWith p (0xE#4 ++ n1) 0x9E#8 = .skp n1 ∧ decodeWith p (0xE#4 ++ n1) 0xA1#8 = .sknp n1) ∧
  (∀ (p p' : Config.Params) (high low : Byte), ¬ (hiNibble high = 0xE ∧ (low = 0x9E ∨ low = 0xA1)) →
    decodeWith p high low = decodeWith p' high low)

/-- R15: the `kind` and `unknown` ports, and each field port as the raw slice of the word (D9), carried or not. -/
def Obligations.FieldPortsCarryRawSlices : Prop :=
  ∀ high low : Byte,
    let d := decodePorts Config.hardware high low
    d.kind = (decode high low).kind ∧ (d.unknown = true ↔ d.kind = 0) ∧
    d.x = (if d.kind = 24 ∨ d.kind = 25 then loNibble low else loNibble high) ∧
    d.y = hiNibble low ∧ d.n = loNibble low ∧ d.kk = low ∧ d.nnn = loNibble high ++ low ∧
    d.variant = some (decode high low)

/-- R15, R17: under every setting of the parameters the wires carry the variant value. -/
def Obligations.PortsCarryTheVariant : Prop :=
  ∀ (p : Config.Params) (high low : Byte), (decodePorts p high low).variant = some (decodeWith p high low)

/-- R61: `UNKNOWN` is 0, the k-th row of the table (from 0) has the id k + 1, and 35 to 63 never appear. -/
def Obligations.VariantIdsFollowTheTable : Prop :=
  Instr.unknown.kind = 0 ∧ (∀ (k : Nat) (r : RomRow), rom[k]? = some r → ∀ f : Fields, (r.make f).kind.toNat = k + 1) ∧
  ∀ i : Instr, i.kind.toNat ≤ 34

/-- The source's examples and one word of each class, written out from the encoding table: what they decode to. -/
def Obligations.CuratedWordsDecodeAsTheSourceSays : Prop :=
  decode 0x00#8 0xE0#8 = .cls ∧ decode 0x00#8 0xEE#8 = .ret ∧ decode 0x12#8 0x34#8 = .jp 0x234 ∧
  decode 0x60#8 0xAB#8 = .ldImm 0x0 0xAB ∧ decode 0x8A#8 0xB4#8 = .addReg 0xA 0xB ∧
  decode 0x9C#8 0xD7#8 = .sneReg 0xC 0xD ∧ decode 0xDA#8 0xB5#8 = .drw 0xA 0xB 0x5 ∧
  decode 0xE5#8 0x9E#8 = .skp 0xE ∧ decode 0xFA#8 0x55#8 = .ldMemVx 0xA ∧ decode 0x8A#8 0xB8#8 = .unknown

/-! ## Render -/

/-- R120 to R122: the padded and the shortest spellings of a number. -/
def Obligations.HexFunctionsSpellNumbers : Prop :=
  (∀ v : Byte, hex2 false v = hexOf 2 v.toNat) ∧ (∀ v : Word, hex4 false v = hexOf 4 v.toNat) ∧
  (∀ v : Byte, hexMin false v = hexShort v.toNat)

/-- R119, R123, R124, R125, R135: one digit in both cases; the four operand texts, their digits in the case the parameter
selects; the first 11 characters of the line in lower case under every parameter. That this hardware's operand digits are
lower case is the spec's decision D7 (log 10). -/
def Obligations.OperandTextsSpellFields : Prop :=
  (∀ d : Nibble, hexDigit false d = digit d.toNat ∧ hex1 false d = [digit d.toNat]) ∧
  (∀ d : Nibble, hexDigit true d = if d.toNat < 10 then digit d.toNat else BitVec.ofNat 8 (0x41 + (d.toNat - 10))) ∧
  (∀ (p : Config.Params) (x : Nibble), reg p x = inCase p (regText x)) ∧
  (∀ (p : Config.Params) (kk : Byte), imm p kk = inCase p (hexShort kk.toNat)) ∧
  (∀ (p : Config.Params) (nnn : Addr), addr p nnn = inCase p (addrText nnn)) ∧
  (∀ (p : Config.Params) (n : Nibble), cnt p n = inCase p (hexOf 1 n.toNat)) ∧
  (∀ (p : Config.Params) (offset : Word) (high low : Byte) (d : Instr),
    (renderLine p offset high low d).take 11 = prefixText offset.toNat high.toNat low.toNat) ∧
  Config.hardware.operandHexUpper = false

/-- R126: the line is the offset, the two raw bytes and the text, in that order, with one space after each of the first
three. -/
def Obligations.LineIsPrefixThenText : Prop :=
  ∀ (p : Config.Params) (offset : Word) (high low : Byte) (d : Instr),
    renderLine p offset high low d = prefixText offset.toNat high.toNat low.toNat ++ renderText p d

/-- R127: the prefix is the first 11 characters, depends on neither the variant nor the parameters, and determines the
offset and the word. -/
def Obligations.PrefixDeterminesOffsetAndWord : Prop :=
  ∀ (p p' : Config.Params) (offset offset' : Word) (high low high' low' : Byte) (d d' : Instr),
    (renderLine p offset high low d).take 11 = prefixText offset.toNat high.toNat low.toNat ∧
    ((renderLine p offset high low d).take 11 = (renderLine p' offset' high' low' d').take 11 ↔
      offset = offset' ∧ high = high' ∧ low = low')

/-- Section 3 of 48_render.md, with the texts the spec decided (D5, D19, D21): which lengths a text and a line have. -/
def Obligations.TextAndLineLengths : Prop :=
  (∀ i : Instr, (renderText Config.hardware i).length ∈ [3, 6, 7, 8, 9, 10, 11, 13]) ∧
  (∀ k ∈ [3, 6, 7, 8, 9, 10, 11, 13], ∃ i : Instr, i.wellFormed Config.hardware = true ∧
    (renderText Config.hardware i).length = k) ∧
  (∀ i : Instr, (renderText Config.hardware i).length = 3 ↔ i = .cls ∨ i = .ret) ∧
  (∀ i : Instr, (renderText Config.hardware i).length = 13 ↔ ∃ x y n, i = .drw x y n) ∧
  ∀ (offset : Word) (high low : Byte) (i : Instr),
    (renderLine Config.hardware offset high low i).length = 11 + (renderText Config.hardware i).length

/-- R131: every character of every line is one of the listed ones. -/
def Obligations.LinesUseOnlyListedCharacters : Prop :=
  ∀ (offset : Word) (high low : Byte) (i : Instr), ∀ c ∈ renderLine Config.hardware offset high low i,
    c ∈ lineCharacters

/-- Section 4 of 48_render.md, with the decided texts (D5, D19): two variants have one text only where they are equal, or
are the same shift of the same `x`. -/
def Obligations.TextDeterminesVariantUpToShiftSource : Prop :=
  ∀ i j : Instr, renderText Config.hardware i = renderText Config.hardware j ↔
    i = j ∨ (∃ x y y', i = .shr x y ∧ j = .shr x y') ∨ (∃ x y y', i = .shl x y ∧ j = .shl x y')

/-- Section 3 of 48_render.md (padding asymmetry), on the load-immediate form with its decided text (D5): a byte below 16
stands zero-padded in the prefix and as one digit in the operand. -/
def Obligations.PrefixPaddedOperandUnpadded : Prop :=
  ∀ (offset : Word) (x : Nibble) (kk : Byte), kk.toNat < 16 →
    renderLine Config.hardware offset (0x6#4 ++ x) kk (decode (0x6#4 ++ x) kk) =
      hexOf 4 offset.toNat ++ [0x20#8, 0x36#8, digit x.toNat, 0x20#8, 0x30#8, digit kk.toNat, 0x20#8] ++
        ascii ['L', 'D', ' '] ++ regText x ++ ascii [',', ' '] ++ [digit kk.toNat]

/-! ## The buffer and the decode call -/

/-- R30: the fetch gives the byte at `offset` as `high` and the byte at `offset + 1` as `low`, whatever was placed there,
and no other byte of the buffer influences it. -/
def Obligations.FetchGivesTwoBytesHighFirst : Prop :=
  ∀ (m : Memory) (a : Nat), a + 1 < m.size → a + 1 < 65536 →
    m.fetch a = some (m.byteAt a, m.byteAt (a + 1)) ∧
    (∀ v w : Byte, ((m.write a v).write (a + 1) w).fetch a = some (v, w)) ∧
    (∀ (b : Nat) (v : Byte), b ≠ a → b ≠ a + 1 → (m.write b v).fetch a = m.fetch a)

/-- R31: a call with `offset + 1` outside the buffer has no result, 0xFFFF never has one, and no meaning runs there. The
refusal is the spec's decision D11 and its form, and the clause on meanings, the model's deduction (log 1). -/
def Obligations.CallOutsideBufferIsRefused : Prop :=
  (∀ (m : Memory) (offset : Word), ¬ offset.toNat + 1 < m.size → decodeCall m offset = .error .outOfBuffer) ∧
  (∀ m : Memory, decodeCall m 0xFFFF#16 = .error .outOfBuffer) ∧
  (∀ (i : Instr) (s : State), ¬ s.offset + 1 < s.mem.size → exec i s = .refused .outOfBuffer)

/-- R33: any offset at which both bytes are in the buffer is decoded, even or odd, as the two bytes that stand there; the
rule's example at 0x201; every offset of the driver is even. -/
def Obligations.AnyOffsetInBufferIsDecoded : Prop :=
  (∀ (m : Memory) (offset : Word), offset.toNat + 1 < m.size → offset.toNat + 1 < 65536 →
    decodeCall m offset = .ok (decode (m.byteAt offset.toNat) (m.byteAt (offset.toNat + 1)),
      prefixText offset.toNat (m.byteAt offset.toNat).toNat (m.byteAt (offset.toNat + 1)).toNat ++
        renderText Config.hardware (decode (m.byteAt offset.toNat) (m.byteAt (offset.toNat + 1))))) ∧
  (∀ m : Memory, 0x204 ≤ m.size → m.byteAt 0x201 = 0xE0 → m.byteAt 0x202 = 0x12 →
    ∃ line, decodeCall m 0x201#16 = .ok (.unknown, line)) ∧
  (∀ s : State, s.DriverInv → s.offset % 2 = 0)

/-- R29, R43: the byte written at an index of the buffer is what is read there, every other byte stays, and the set of
indices stays. -/
def Obligations.WrittenByteReadsBackOthersStay : Prop :=
  ∀ (m : Memory) (a : Nat) (v : Byte), a < m.size → a < 65536 →
    (m.write a v).read a = some v ∧ ∀ b, b ≠ a → (m.write a v).read b = m.read b

/-- R43: no meaning stores, and a byte the environment changes between two calls is what the next call decodes. -/
def Obligations.BufferChangeIsSeenByNextCall : Prop :=
  (∀ (i : Instr) (s t : State), exec i s = .next t → t.mem = s.mem) ∧
  (∀ (s : State) (offset : Word) (v : Byte), offset.toNat + 1 < s.mem.size → offset.toNat + 1 < 65536 →
    (∃ line, decodeCall (s.pokeByte offset.toNat v).mem offset =
      .ok (decode v (s.mem.byteAt (offset.toNat + 1)), line)) ∧
    (∃ line, decodeCall (s.pokeByte (offset.toNat + 1) v).mem offset = .ok (decode (s.mem.byteAt offset.toNat) v, line)))

/-- R38, R65: a decode call depends on the offset and on its own two bytes only. -/
def Obligations.CallDependsOnlyOnItsTwoBytes : Prop :=
  ∀ (m m' : Memory) (offset : Word), offset.toNat + 1 < m.size → offset.toNat + 1 < m'.size →
    m.byteAt offset.toNat = m'.byteAt offset.toNat → m.byteAt (offset.toNat + 1) = m'.byteAt (offset.toNat + 1) →
    decodeCall m offset = decodeCall m' offset

/-- R14 to R16: what the wires of the three blocks in series show for a decode call that has a result. -/
def Obligations.BlockPortsShowTheDecodeCall : Prop :=
  ∀ (m : Memory) (offset : Word) (i : Instr) (line : Text), decodeCall m offset = .ok (i, line) →
    ∃ f d r, blockPorts Config.hardware m offset = some (f, d, r) ∧
      f.bufAddr0 = offset ∧ f.bufAddr1.toNat = offset.toNat + 1 ∧
      f.bufData0 = m.byteAt offset.toNat ∧ f.bufData1 = m.byteAt (offset.toNat + 1) ∧
      f.high = f.bufData0 ∧ f.low = f.bufData1 ∧
      d.variant = some i ∧ r.line = line ∧ r.lineLen.toNat = line.length ∧ 14 ≤ line.length ∧ line.length ≤ 24

/-! ## Step -/

/-- R40, R160: where the loop is enabled and the word is in the buffer, the step is exec of the decoded word. -/
def Obligations.StepRunsDecodedInstruction : Prop :=
  ∀ s : State, s.offset + 1 < 0x200 + s.len → s.offset + 1 < s.mem.size → s.offset + 1 < 65536 →
    step s = exec (decode (highAt s) (lowAt s)) s

/-- R160: with the image in the buffer, the step has a next state exactly when `offset + 1 < BASE + LEN`, and then it hands
one line to the driver and advances the offset by 2. -/
def Obligations.StepEmitsLineAndAdvancesByTwo : Prop :=
  ∀ s : State, s.ImageFits →
    ((∃ t, step s = .next t) ↔ s.offset + 1 < 0x200 + s.len) ∧
    (s.offset + 1 < 0x200 + s.len →
      step s = .next (after s (renderText Config.hardware (decode (highAt s) (lowAt s)))))

/-- R161, R31: in every state, which of the two refusals the step gives, and when. -/
def Obligations.StepRefusesAtEndOfRun : Prop :=
  ∀ s : State,
    (step s = .refused .runEnded ↔ ¬ s.offset + 1 < 0x200 + s.len) ∧
    (step s = .refused .outOfBuffer ↔ s.offset + 1 < 0x200 + s.len ∧ ¬ s.CallOk)

/-- R21, R28, R71: the frame of EVERY form. One line of 14 to 24 characters is added, the offset advances by 2, and every
byte of the buffer, its size and the image's length are as before. -/
def Obligations.EveryFormLeavesBufferAndAdvances : Prop :=
  ∀ (i : Instr) (s t : State), exec i s = .next t →
    t.offset = s.offset + 2 ∧ (∀ a, t.mem.read a = s.mem.read a) ∧ t.mem = s.mem ∧ t.len = s.len ∧
    ∃ line, t.lines = s.lines ++ [line] ∧ 14 ≤ line.length ∧ line.length ≤ 24

/-- R31, R64, R71, R141: EVERY form completes where both bytes at the offset are in the buffer, and the only other outcome is
the refusal of R31, in the model's form (log 1). -/
def Obligations.EveryFormCompletesInsideBuffer : Prop :=
  ∀ (i : Instr) (s : State),
    (s.CallOk → exec i s = .next (after s (renderText Config.hardware i))) ∧
    (¬ s.CallOk → exec i s = .refused .outOfBuffer)

/-- R73: a word is `CLS` exactly where its class is 0x0 and its selector 0xE0; its text is the source's own literal; the
neighbours are UNKNOWN; the rule's lines for `0x0FE0` and `0x00E0` at 0x200. -/
def Obligations.ClearScreenFormEmitsCls : Prop :=
  (∀ high low : Byte, decode high low = .cls ↔ hiNibble high = 0x0 ∧ low = 0xE0) ∧
  decode 0x00#8 0xE1#8 = .unknown ∧ decode 0x00#8 0xDF#8 = .unknown ∧
  renderLine Config.hardware 0x200#16 0x0F#8 0xE0#8 (decode 0x0F#8 0xE0#8) =
    ascii ['0', '2', '0', '0', ' ', '0', 'f', ' ', 'e', '0', ' ', 'C', 'L', 'S'] ∧
  renderLine Config.hardware 0x200#16 0x00#8 0xE0#8 (decode 0x00#8 0xE0#8) =
    ascii ['0', '2', '0', '0', ' ', '0', '0', ' ', 'e', '0', ' ', 'C', 'L', 'S'] ∧
  ∀ s : State, s.CallOk → exec .cls s = .next (after s (ascii ['C', 'L', 'S']))

/-- Rule 74's form with its decided text (D5). -/
def Obligations.ReturnFormEmitsItsText : Prop :=
  ∀ s : State, s.CallOk → exec .ret s = .next (after s (ascii ['R', 'E', 'T']))

/-- The four address forms (`JP`, `CALL`, `LD_I`, `JP_V0`) with their decided texts (D5): the address is printed in three
digits and never followed. -/
def Obligations.AddressFormsEmitTheirTexts : Prop :=
  ∀ (s : State) (nnn : Addr), s.CallOk →
    exec (.jp nnn) s = .next (after s (ascii ['J', 'P', ' '] ++ addrText nnn)) ∧
    exec (.call nnn) s = .next (after s (ascii ['C', 'A', 'L', 'L', ' '] ++ addrText nnn)) ∧
    exec (.ldI nnn) s = .next (after s (ascii ['L', 'D', ' ', 'I', ',', ' '] ++ addrText nnn)) ∧
    exec (.jpV0 nnn) s = .next (after s (ascii ['J', 'P', ' ', 'V', '0', ',', ' '] ++ addrText nnn))

/-- The five register-immediate forms (`SE_IMM`, `SNE_IMM`, `LD_IMM`, `ADD_IMM`, `RND`) with their decided texts (D5). -/
def Obligations.RegisterImmediateFormsEmitTheirTexts : Prop :=
  ∀ (s : State) (x : Nibble) (kk : Byte), s.CallOk →
    exec (.seImm x kk) s = .next (after s (ascii ['S', 'E', ' '] ++ regText x ++ ascii [',', ' '] ++ hexShort kk.toNat)) ∧
    exec (.sneImm x kk) s =
      .next (after s (ascii ['S', 'N', 'E', ' '] ++ regText x ++ ascii [',', ' '] ++ hexShort kk.toNat)) ∧
    exec (.ldImm x kk) s = .next (after s (ascii ['L', 'D', ' '] ++ regText x ++ ascii [',', ' '] ++ hexShort kk.toNat)) ∧
    exec (.addImm x kk) s =
      .next (after s (ascii ['A', 'D', 'D', ' '] ++ regText x ++ ascii [',', ' '] ++ hexShort kk.toNat)) ∧
    exec (.rnd x kk) s = .next (after s (ascii ['R', 'N', 'D', ' '] ++ regText x ++ ascii [',', ' '] ++ hexShort kk.toNat))

/-- The two register-pair skips (`SE_REG`, `SNE_REG`) and `DRW` with their decided texts (D5): nothing is skipped, and
class 0x9 emits one line with its own text. -/
def Obligations.RegisterPairFormsEmitTheirTexts : Prop :=
  ∀ (s : State) (x y n : Nibble), s.CallOk →
    exec (.seReg x y) s = .next (after s (ascii ['S', 'E', ' '] ++ regText x ++ ascii [',', ' '] ++ regText y)) ∧
    exec (.sneReg x y) s = .next (after s (ascii ['S', 'N', 'E', ' '] ++ regText x ++ ascii [',', ' '] ++ regText y)) ∧
    exec (.drw x y n) s = .next (after s (ascii ['D', 'R', 'W', ' '] ++ regText x ++ ascii [',', ' '] ++ regText y ++
      ascii [',', ' '] ++ hexOf 1 n.toNat))

/-- The nine class-0x8 forms with their decided texts (D5); the shifts print only `x`. -/
def Obligations.ArithmeticFormsEmitTheirTexts : Prop :=
  ∀ (s : State) (x y : Nibble), s.CallOk →
    exec (.ldReg x y) s = .next (after s (ascii ['L', 'D', ' '] ++ regText x ++ ascii [',', ' '] ++ regText y)) ∧
    exec (.or x y) s = .next (after s (ascii ['O', 'R', ' '] ++ regText x ++ ascii [',', ' '] ++ regText y)) ∧
    exec (.and x y) s = .next (after s (ascii ['A', 'N', 'D', ' '] ++ regText x ++ ascii [',', ' '] ++ regText y)) ∧
    exec (.xor x y) s = .next (after s (ascii ['X', 'O', 'R', ' '] ++ regText x ++ ascii [',', ' '] ++ regText y)) ∧
    exec (.addReg x y) s = .next (after s (ascii ['A', 'D', 'D', ' '] ++ regText x ++ ascii [',', ' '] ++ regText y)) ∧
    exec (.sub x y) s = .next (after s (ascii ['S', 'U', 'B', ' '] ++ regText x ++ ascii [',', ' '] ++ regText y)) ∧
    exec (.shr x y) s = .next (after s (ascii ['S', 'H', 'R', ' '] ++ regText x)) ∧
    exec (.subn x y) s = .next (after s (ascii ['S', 'U', 'B', 'N', ' '] ++ regText x ++ ascii [',', ' '] ++ regText y)) ∧
    exec (.shl x y) s = .next (after s (ascii ['S', 'H', 'L', ' '] ++ regText x))

/-- The two class-0xE forms with their decided texts (D5): no key is sampled, nothing is skipped. -/
def Obligations.KeyFormsEmitTheirTexts : Prop :=
  ∀ (s : State) (x : Nibble), s.CallOk →
    exec (.skp x) s = .next (after s (ascii ['S', 'K', 'P', ' '] ++ regText x)) ∧
    exec (.sknp x) s = .next (after s (ascii ['S', 'K', 'N', 'P', ' '] ++ regText x))

/-- The nine class-0xF forms with their decided texts (D5, D19): nothing is read, waited for, stored or loaded. -/
def Obligations.ClassFFormsEmitTheirTexts : Prop :=
  ∀ (s : State) (x : Nibble), s.CallOk →
    exec (.ldVxDt x) s = .next (after s (ascii ['L', 'D', ' '] ++ regText x ++ ascii [',', ' ', 'D', 'T'])) ∧
    exec (.ldVxK x) s = .next (after s (ascii ['L', 'D', ' '] ++ regText x ++ ascii [',', ' ', 'K'])) ∧
    exec (.ldDtVx x) s = .next (after s (ascii ['L', 'D', ' ', 'D', 'T', ',', ' '] ++ regText x)) ∧
    exec (.ldStVx x) s = .next (after s (ascii ['L', 'D', ' ', 'S', 'T', ',', ' '] ++ regText x)) ∧
    exec (.addIVx x) s = .next (after s (ascii ['A', 'D', 'D', ' ', 'I', ',', ' '] ++ regText x)) ∧
    exec (.ldFVx x) s = .next (after s (ascii ['L', 'D', ' ', 'F', ',', ' '] ++ regText x)) ∧
    exec (.ldBVx x) s = .next (after s (ascii ['L', 'D', ' ', 'B', ',', ' '] ++ regText x)) ∧
    exec (.ldMemVx x) s = .next (after s (ascii ['L', 'D', ' ', '[', 'I', ']', ',', ' '] ++ regText x)) ∧
    exec (.ldVxMem x) s = .next (after s (ascii ['L', 'D', ' '] ++ regText x ++ ascii [',', ' ', '[', 'I', ']']))

/-- The `UNKNOWN` variant with its decided text (D6): one line, and the run goes on. -/
def Obligations.UnknownFormEmitsItsText : Prop :=
  ∀ s : State, s.CallOk → exec .unknown s = .next (after s (ascii ['U', 'N', 'K', 'N', 'O', 'W', 'N']))

/-- R118: an unknown word is not an error: the step has a next state, a fourth field is emitted, and the driver goes on to
`offset + 2` exactly as it would from a state that differs in the word. -/
def Obligations.UnknownWordDoesNotStopTheRun : Prop :=
  ∀ s : State, s.ImageFits → s.offset + 1 < 0x200 + s.len → decode (highAt s) (lowAt s) = .unknown →
    ∃ t text, step s = .next t ∧ text ≠ [] ∧ t.lines = s.lines ++ [lineFor s text] ∧ t.offset = s.offset + 2 ∧
      ∀ s' t', s'.offset = s.offset → step s' = .next t' → t'.offset = t.offset

/-- R26, R65: the line a form emits depends on the offset and the two bytes there, not on the rest of the buffer, the
image's length or the lines taken before. -/
def Obligations.LineDependsOnlyOnOffsetAndWord : Prop :=
  ∀ (i : Instr) (s s' t t' : State), exec i s = .next t → exec i s' = .next t' → s.offset = s'.offset →
    highAt s = highAt s' → lowAt s = lowAt s' →
    ∃ line, t.lines = s.lines ++ [line] ∧ t'.lines = s'.lines ++ [line]

/-! ## The run -/

/-- R157: after a load, the first word decoded is the one at `BASE`, `BASE + 1`, the image's first two bytes. -/
def Obligations.FirstWordDecodedIsAtBase : Prop :=
  ∀ (s t : State) (high low : Byte) (rest : List Byte), s.load (high :: low :: rest) = some t →
    t.offset = 0x200 ∧ step t = exec (decode high low) t ∧
    step t = .next (after t (renderText Config.hardware (decode high low))) ∧ highAt t = high ∧ lowAt t = low

/-- R27, and log 4 (the model's choice of an empty program): `offset` is `BASE`, nothing is placed or taken, and the first
step without a load is the end of the run. -/
def Obligations.ResetIsBaseWithTheEmptyProgram : Prop :=
  State.reset.offset = 0x200 ∧ State.reset.lines = [] ∧ State.reset.len = 0 ∧ State.reset.mem.cells = [] ∧
  State.reset.mem.size = 0x200 ∧ step State.reset = .refused .runEnded

/-- Reset meets the driver's invariant. -/
def Obligations.ResetMeetsDriverInvariant : Prop := State.reset.DriverInv

/-- R21, R40, R160, R161: every step from every state that meets the driver's invariant gives one that meets it: the buffer in
canonical form, the offset `BASE` plus 2 per line and never past the last complete word, and the lines taken the listing of
the words passed. -/
def Obligations.EveryStepKeepsDriverInvariant : Prop :=
  ∀ s t : State, s.DriverInv → step s = .next t → t.DriverInv

/-- R36, R37, R159: a load places byte `i` of the image at `BASE + i`, leaves the bytes below `BASE`, and meets the driver's
invariant; it is refused exactly for an image that does not fit the 16-bit indices. -/
def Obligations.LoadPlacesImageAndMeetsInvariant : Prop :=
  (∀ (s : State) (image : List Byte), s.load image = none ↔ 65536 < 0x200 + image.length) ∧
  ∀ (s t : State) (image : List Byte), s.mem.wf → s.load image = some t →
    t.DriverInv ∧ t.offset = 0x200 ∧ t.len = image.length ∧ t.lines = [] ∧
    (∀ (k : Nat) (b : Byte), image[k]? = some b → t.mem.read (0x200 + k) = some b) ∧
    (∀ a, a < 0x200 → t.mem.byteAt a = s.mem.byteAt a)

/-- R161: from every state of the driver's invariant the run takes exactly the steps that are left of `floor(LEN / 2)`, ends
at `BASE + 2 * floor(LEN / 2)` with the buffer unchanged, and has emitted the `k`-th word's line at place `k`. That the step then
answers `refused runEnded`, where the rule says it is no longer enabled, is the model's form (log 6). -/
def Obligations.RunTakesHalfTheLengthInSteps : Prop :=
  ∀ s : State, s.DriverInv →
    ∃ t : State, Sys2Proof.core.run (s.len / 2 - s.lines.length) s = .next t ∧
      t.offset = 0x200 + 2 * (s.len / 2) ∧ t.mem = s.mem ∧ t.lines.length = s.len / 2 ∧
      (∀ k, k < s.len / 2 → t.lines[k]? = some
        (renderLine Config.hardware (BitVec.ofNat 16 (0x200 + 2 * k)) (s.mem.byteAt (0x200 + 2 * k))
          (s.mem.byteAt (0x200 + 2 * k + 1))
          (decode (s.mem.byteAt (0x200 + 2 * k)) (s.mem.byteAt (0x200 + 2 * k + 1))))) ∧
      step t = .refused .runEnded

/-- R41: with `LEN = 0` or `LEN = 1` the loop body never runs. That no line is taken after a load (log 5) and that the end of
the loop is `refused runEnded` (log 6) are the model's forms. -/
def Obligations.EmptyProgramGivesNoLine : Prop :=
  ∀ (s t : State) (image : List Byte), image.length ≤ 1 → s.load image = some t →
    t.lines = [] ∧ step t = .refused .runEnded

/-- R42: the last byte of an image of odd length is never read by a step. -/
def Obligations.OddLastByteIsNeverRead : Prop :=
  ∀ (s t : State) (v : Byte), s.DriverInv → s.len % 2 = 1 → step s = .next t →
    s.offset + 1 < 0x200 + s.len - 1 ∧
    ∃ t', step (s.pokeByte (0x200 + s.len - 1) v) = .next t' ∧ t'.lines = t.lines ∧ t'.offset = t.offset

/-- A word placed at the driver's offset (log 6) is what the very next step runs, in every state whose offset leaves room. -/
def Obligations.PlacedWordRunsAsNextStep : Prop :=
  ∀ (s : State) (w : Word), s.offset + 1 < 65536 →
    step (s.withFetchWord 16 w.toNat) = exec (decode (highByte w) (lowByte w)) (s.withFetchWord 16 w.toNat) ∧
    highAt (s.withFetchWord 16 w.toNat) = highByte w ∧ lowAt (s.withFetchWord 16 w.toNat) = lowByte w
end

