-- ==== Sys2Proof/Laws/Decode.lean ====
section
/-! SUPPORT. The small laws of field extraction: a byte is its two nibbles, a word its two bytes, an address its high nibble
and its low byte (00_scope.md rule R7, 30_encoding.md rules R48, R51). -/

namespace Sys2Proof

theorem hiNibble_append : ∀ a b : Nibble, hiNibble (a ++ b) = a := by decide

theorem loNibble_append : ∀ a b : Nibble, loNibble (a ++ b) = b := by decide

theorem nibbles_append : ∀ b : Byte, hiNibble b ++ loNibble b = b := by decide

theorem highByte_append (a b : Byte) : highByte (a ++ b) = a := by
  unfold highByte
  rw [BitVec.extractLsb'_append_eq_left]

theorem lowByte_append (a b : Byte) : lowByte (a ++ b) = b := by
  unfold lowByte
  rw [BitVec.extractLsb'_append_eq_right]

theorem bytes_append (w : Word) : highByte w ++ lowByte w = w := by
  have h := BitVec.extractLsb'_append_extractLsb'_eq_extractLsb' (x := w) (start₁ := 0) (start₂ := 8) (len₁ := 8)
    (len₂ := 8) rfl
  exact h.trans BitVec.extractLsb'_eq_self

theorem addr_append (nnn : Addr) : (nnn.extractLsb' 8 4 ++ nnn.extractLsb' 0 8 : BitVec 12) = nnn := by
  have h := BitVec.extractLsb'_append_extractLsb'_eq_extractLsb' (x := nnn) (start₁ := 0) (start₂ := 8) (len₁ := 8)
    (len₂ := 4) rfl
  exact h.trans BitVec.extractLsb'_eq_self

/-- The nibbles of a word given as its four nibbles. -/
theorem fields_append (p : Config.Params) (n0 n1 n2 n3 : Nibble) :
    fields p (n0 ++ n1) (n2 ++ n3) =
      { n0 := n0, n1 := n1, n2 := n2, n3 := n3, low := n2 ++ n3, nnn := n1 ++ (n2 ++ n3)
        key := if p.keyRegSel = .n3 then n3 else n1 } := by
  unfold fields
  rw [hiNibble_append, loNibble_append, hiNibble_append, loNibble_append]
  cases p.keyRegSel <;> rfl

end Sys2Proof
end

