-- ==== Sys2Proof/Laws/State.lean ====
section
/-! SUPPORT. What each update of State leaves in each field, so that no later proof unfolds a record update. -/

namespace Sys2Proof.Machine

@[simp] theorem base_eq : Config.base = 0x200 := rfl
@[simp] theorem indexLimit_eq : Config.indexLimit = 65536 := rfl
@[simp] theorem wordBytes_eq : Config.wordBytes = 2 := rfl

section
variable (s : State) (line : Text) (a : Nat) (v : Byte)

@[simp] theorem State.emit_offset : (s.emit line).offset = s.offset := rfl
@[simp] theorem State.emit_mem : (s.emit line).mem = s.mem := rfl
@[simp] theorem State.emit_len : (s.emit line).len = s.len := rfl
@[simp] theorem State.emit_lines : (s.emit line).lines = s.lines ++ [line] := rfl

@[simp] theorem State.advance_offset : s.advance.offset = s.offset + 2 := rfl
@[simp] theorem State.advance_mem : s.advance.mem = s.mem := rfl
@[simp] theorem State.advance_len : s.advance.len = s.len := rfl
@[simp] theorem State.advance_lines : s.advance.lines = s.lines := rfl

@[simp] theorem State.pokeByte_offset : (s.pokeByte a v).offset = s.offset := rfl
@[simp] theorem State.pokeByte_mem : (s.pokeByte a v).mem = s.mem.write a v := rfl
@[simp] theorem State.pokeByte_len : (s.pokeByte a v).len = s.len := rfl
@[simp] theorem State.pokeByte_lines : (s.pokeByte a v).lines = s.lines := rfl

@[simp] theorem State.restart_offset : s.restart.offset = Config.base := rfl
@[simp] theorem State.restart_mem : s.restart.mem = s.mem := rfl
@[simp] theorem State.restart_len : s.restart.len = s.len := rfl
@[simp] theorem State.restart_lines : s.restart.lines = [] := rfl

@[simp] theorem State.reset_offset : State.reset.offset = 0x200 := rfl
@[simp] theorem State.reset_mem : State.reset.mem = ⟨[], 0x200⟩ := rfl
@[simp] theorem State.reset_len : State.reset.len = 0 := rfl
@[simp] theorem State.reset_lines : State.reset.lines = [] := rfl
end

end Sys2Proof.Machine
end

