-- ==== Sys2Proof/Laws/Memory.lean ====
section
/-! SUPPORT. The laws of the buffer: what is read after a write, that every operation keeps the canonical form, and when a
fetch answers. -/

namespace Sys2Proof.Machine

theorem cellAt_putCell (a b : Nat) (v : Byte) (cs : List Host.Cell) :
    cellAt b (putCell a v cs) = if b = a then some v else cellAt b cs := by
  induction cs with
  | nil => simp only [putCell, cellAt, eq_comm]
  | cons c cs ih =>
    unfold putCell
    split
    · simp only [cellAt, eq_comm (a := b)]
    · split
      · rename_i h
        subst h
        by_cases hb : b = c.1
        · simp [cellAt, hb]
        · simp [cellAt, hb, Ne.symm hb]
      · rename_i h1 h2
        simp only [cellAt, ih]
        by_cases hb : b = a
        · subst hb
          simp [Ne.symm h2]
        · simp [hb]

/-- Where a listed cell of the updated list comes from. -/
theorem mem_putCell {a : Nat} {v : Byte} {c : Host.Cell} {cs : List Host.Cell} (h : c ∈ putCell a v cs) :
    c = (a, v) ∨ c ∈ cs := by
  induction cs with
  | nil => simpa [putCell] using h
  | cons d ds ih =>
    unfold putCell at h
    split at h
    · simpa using h
    · split at h
      · rcases List.mem_cons.1 h with h | h
        · exact .inl h
        · exact .inr (List.mem_cons_of_mem _ h)
      · rcases List.mem_cons.1 h with h | h
        · exact .inr (h ▸ List.mem_cons_self)
        · exact (ih h).imp id (List.mem_cons_of_mem _)

theorem putCell_rising {a : Nat} {v : Byte} {cs : List Host.Cell} (h : cs.Pairwise (fun c d => c.1 < d.1)) :
    (putCell a v cs).Pairwise (fun c d => c.1 < d.1) := by
  induction cs with
  | nil => simp [putCell]
  | cons c cs ih =>
    have ⟨hc, hcs⟩ := List.pairwise_cons.1 h
    unfold putCell
    split
    · rename_i hlt
      refine List.pairwise_cons.2 ⟨fun d hd => ?_, h⟩
      rcases List.mem_cons.1 hd with rfl | hd
      · exact hlt
      · exact Nat.lt_trans hlt (hc d hd)
    · split
      · rename_i heq
        exact List.pairwise_cons.2 ⟨fun d hd => by simpa [heq] using hc d hd, hcs⟩
      · refine List.pairwise_cons.2 ⟨fun d hd => ?_, ih hcs⟩
        rcases mem_putCell hd with rfl | hd
        · simp only; omega
        · exact hc d hd

theorem hasIndex_iff (m : Memory) (a : Nat) : m.hasIndex a = true ↔ a < m.size ∧ a < 65536 := by
  unfold Memory.hasIndex
  rw [Bool.and_eq_true, decide_eq_true_iff, decide_eq_true_iff]

/-- A write keeps the canonical form. -/
theorem write_wf {m : Memory} (h : m.wf) (a : Nat) (v : Byte) : (m.write a v).wf := by
  obtain ⟨h1, h2, h3⟩ := h
  unfold Memory.write
  split
  · rename_i ha
    refine ⟨putCell_rising h1, fun c hc => ?_, h3⟩
    rcases mem_putCell hc with rfl | hc
    · exact ((hasIndex_iff m a).1 ha).1
    · exact h2 c hc
  · exact ⟨h1, h2, h3⟩

/-- Growing the buffer keeps the canonical form. -/
theorem grow_wf {m : Memory} (h : m.wf) (n : Nat) : (m.grow n).wf := by
  obtain ⟨h1, h2, h3⟩ := h
  simp only [Memory.wf, Memory.grow, Config.indexLimit] at *
  exact ⟨h1, fun c hc => Nat.lt_of_lt_of_le (h2 c hc) (Nat.le_max_left _ _), by omega⟩

theorem reset_mem_wf : State.reset.mem.wf := by decide

@[simp] theorem write_size (m : Memory) (a : Nat) (v : Byte) : (m.write a v).size = m.size := by
  unfold Memory.write
  split <;> rfl

/-- A read after a write: the byte written at that index, every other index as before. -/
theorem byteAt_write {m : Memory} {a : Nat} (h : m.hasIndex a = true) (v : Byte) (b : Nat) :
    (m.write a v).byteAt b = if b = a then v else m.byteAt b := by
  simp only [Memory.write, h, if_true, Memory.byteAt, cellAt_putCell]
  split <;> rfl

/-- A fetch answers exactly where both bytes are indices of the buffer, and gives the two bytes there. -/
theorem fetch_eq (m : Memory) (a : Nat) :
    m.fetch a = if a + 1 < m.size ∧ a + 1 < 65536 then some (m.byteAt a, m.byteAt (a + 1)) else none := by
  by_cases h : a + 1 < m.size ∧ a + 1 < 65536
  · have h0 : m.hasIndex a = true := (hasIndex_iff m a).2 ⟨by omega, by omega⟩
    have h1 : m.hasIndex (a + 1) = true := (hasIndex_iff m (a + 1)).2 h
    simp [Memory.fetch, Memory.read, h0, h1, h]
  · have h1 : m.hasIndex (a + 1) = false := by
      rw [← Bool.not_eq_true]
      exact fun hh => h ((hasIndex_iff m (a + 1)).1 hh)
    simp only [Memory.fetch, Memory.read, h1, h, if_false, Bool.false_eq_true]
    split <;> simp_all

theorem cellAt_append (a : Nat) (l r : List Host.Cell) : cellAt a (l ++ r) = (cellAt a l).or (cellAt a r) := by
  induction l with
  | nil => rfl
  | cons c l ih =>
    by_cases h : c.1 = a
    · simp [cellAt, h]
    · simp [cellAt, h, ih]

/-- Byte `k` of an image placed from `b` on is found at `b + k`. -/
theorem cellAt_imageCells (b k : Nat) (bs : List Byte) : cellAt (b + k) (imageCells b bs) = bs[k]? := by
  induction bs generalizing b k with
  | nil => rfl
  | cons x xs ih =>
    cases k with
    | zero => simp [imageCells, cellAt]
    | succ k =>
      have h := ih (b + 1) k
      rw [show b + 1 + k = b + (k + 1) by omega] at h
      simp only [imageCells, cellAt, List.getElem?_cons_succ]
      rw [if_neg (by omega), h]

theorem cellAt_imageCells_below {a b : Nat} (h : a < b) (bs : List Byte) : cellAt a (imageCells b bs) = none := by
  induction bs generalizing b with
  | nil => rfl
  | cons x xs ih =>
    simp only [imageCells, cellAt]
    rw [if_neg (by omega)]
    exact ih (by omega)

/-- Keeping only the cells below `n` keeps what is found below `n` and nothing else. -/
theorem cellAt_filter (a n : Nat) (l : List Host.Cell) :
    cellAt a (l.filter fun c => decide (c.1 < n)) = if a < n then cellAt a l else none := by
  induction l with
  | nil => simp [cellAt]
  | cons c l ih =>
    by_cases h : c.1 < n
    · by_cases hc : c.1 = a
      · simp [cellAt, hc, hc ▸ h]
      · simp [h, cellAt, hc, ih]
    · by_cases hc : c.1 = a
      · subst hc
        simp [h, ih]
      · simp [h, cellAt, hc, ih]

/-- Where a load succeeds, and the state it gives. -/
theorem load_eq_some_iff (s t : State) (image : List Byte) :
    s.load image = some t ↔ 0x200 + image.length ≤ 65536 ∧ t =
      ⟨0x200, ⟨s.mem.cells.filter (fun c => decide (c.1 < 0x200)) ++ imageCells 0x200 image, 0x200 + image.length⟩,
        image.length, []⟩ := by
  unfold State.load
  split
  · rename_i h
    exact ⟨fun e => ⟨h, (Option.some.inj e).symm⟩, fun e => congrArg some e.2.symm⟩
  · rename_i h
    exact ⟨fun e => by simp at e, fun e => absurd e.1 h⟩

theorem imageCells_address {a : Nat} {bs : List Byte} {c : Host.Cell} (h : c ∈ imageCells a bs) :
    a ≤ c.1 ∧ c.1 < a + bs.length := by
  induction bs generalizing a with
  | nil => simp [imageCells] at h
  | cons b bs ih =>
    rcases List.mem_cons.1 h with rfl | h
    · simp
    · have := ih h
      simp only [List.length_cons]
      omega

theorem imageCells_rising (a : Nat) (bs : List Byte) : (imageCells a bs).Pairwise (fun c d => c.1 < d.1) := by
  induction bs generalizing a with
  | nil => simp [imageCells]
  | cons b bs ih =>
    refine List.pairwise_cons.2 ⟨fun d hd => ?_, ih (a + 1)⟩
    have := imageCells_address hd
    simp only
    omega

/-- Loading an image gives a buffer in canonical form. -/
theorem load_wf {s t : State} {image : List Byte} (h : s.mem.wf) (hl : s.load image = some t) : t.mem.wf := by
  unfold State.load at hl
  split at hl
  · rename_i hle
    obtain rfl := Option.some.inj hl
    obtain ⟨h1, h2, h3⟩ := h
    refine ⟨List.pairwise_append.2 ⟨h1.filter _, imageCells_rising _ _, fun c hc d hd => ?_⟩, fun c hc => ?_, hle⟩
    · have hc := (List.mem_filter.1 hc).2
      have := imageCells_address hd
      simp only [decide_eq_true_eq] at hc
      omega
    · rcases List.mem_append.1 hc with hc | hc
      · have hc := (List.mem_filter.1 hc).2
        simp only [decide_eq_true_eq] at hc
        simp only
        omega
      · exact (imageCells_address hc).2
  · cases hl

end Sys2Proof.Machine
end

