-- ==== Sys2Proof/Laws/Ops.lean ====
section
/-! SUPPORT. What the shared operations can do, said once: emitText (the body of every meaning), exec as one emission,
nextInstr (the selection of the next instruction), and the lengths of the operand texts. -/

namespace Sys2Proof.Machine

/-- The line that emitText hands to the driver. -/
def lineOf (text : Text) (s : State) : Text :=
  linePrefix (BitVec.ofNat 16 s.offset) (s.mem.byteAt s.offset) (s.mem.byteAt (s.offset + 1)) ++ text

/-- The precondition of a decode call, in numbers. -/
theorem callOk_iff (s : State) : s.CallOk ↔ s.offset + 1 < s.mem.size ∧ s.offset + 1 < 65536 := Iff.rfl

/-- Everything emitText does: one line and the advance where the word is in the buffer, else the refusal. -/
theorem emitText_eq (text : Text) (s : State) :
    emitText text s =
      if s.CallOk then .next (s.emit (lineOf text s)).advance
      else .refused .outOfBuffer := by
  unfold emitText
  rw [fetch_eq]
  by_cases h : s.CallOk
  · rw [if_pos h, if_pos ((callOk_iff s).1 h)]
    rfl
  · rw [if_neg h, if_neg (fun hc => h ((callOk_iff s).2 hc))]

/-- Every meaning is one emission of the text of its form. -/
theorem exec_eq_emitText (i : Instr) (s : State) : exec i s = emitText (renderText Config.hardware i) s := by
  cases i <;> rfl

/-- If a meaning answers a next state, the word is in the buffer and the state is the one emission. -/
theorem exec_next {i : Instr} {s t : State} (h : exec i s = .next t) :
    s.CallOk ∧ t = (s.emit (lineOf (renderText Config.hardware i) s)).advance := by
  rw [exec_eq_emitText, emitText_eq] at h
  split at h
  · rename_i hc
    exact ⟨hc, (Host.Outcome.next.inj h).symm⟩
  · cases h

/-- The selection of the next instruction, in full. -/
theorem nextInstr_eq (s : State) :
    nextInstr s =
      if s.offset + 1 < 0x200 + s.len then
        if s.CallOk then .ok (decode (s.mem.byteAt s.offset) (s.mem.byteAt (s.offset + 1)))
        else .error .outOfBuffer
      else .error .runEnded := by
  unfold nextInstr State.enabled Config.base
  rw [fetch_eq]
  simp only [decide_eq_true_eq]
  by_cases h : s.CallOk
  · rw [if_pos h, if_pos ((callOk_iff s).1 h)]
  · rw [if_neg h, if_neg (fun hc => h ((callOk_iff s).2 hc))]

/-- One step, in full: which of the two refusals it gives, and else the meaning of the decoded word. -/
theorem step_eq (s : State) :
    step s =
      if s.offset + 1 < 0x200 + s.len then
        if s.CallOk then exec (decode (s.mem.byteAt s.offset) (s.mem.byteAt (s.offset + 1))) s
        else .refused .outOfBuffer
      else .refused .runEnded := by
  unfold step
  rw [nextInstr_eq]
  by_cases h1 : s.offset + 1 < 0x200 + s.len
  · by_cases h2 : s.CallOk
    · simp only [if_pos h1, if_pos h2]
    · simp only [if_pos h1, if_neg h2]
  · simp only [if_neg h1]

/-- If a step answers a next state, the driver's loop is enabled, the word is in the buffer, and the state is the emission of
the decoded word's text. -/
theorem step_next {s t : State} (h : step s = .next t) :
    s.offset + 1 < 0x200 + s.len ∧ s.CallOk ∧
      t = (s.emit (lineOf
        (renderText Config.hardware (decode (s.mem.byteAt s.offset) (s.mem.byteAt (s.offset + 1)))) s)).advance := by
  rw [step_eq] at h
  split at h
  · rename_i hen
    split at h
    · exact ⟨hen, exec_next h⟩
    · cases h
  · cases h

/-- A run of no steps stays where it is. -/
theorem run_zero (s : State) : Sys2Proof.core.run 0 s = .next s := rfl

/-- A run of one more step starts with that step. -/
theorem run_succ {s t : State} (h : step s = .next t) (n : Nat) :
    Sys2Proof.core.run (n + 1) s = Sys2Proof.core.run n t := by
  have h' : Sys2Proof.core.step s = .next t := h
  simp only [Host.Core.run, h']

@[simp] theorem hex1_length (u : Bool) (v : Nibble) : (hex1 u v).length = 1 := rfl
@[simp] theorem hex2_length (u : Bool) (v : Byte) : (hex2 u v).length = 2 := rfl
@[simp] theorem hex4_length (u : Bool) (v : Word) : (hex4 u v).length = 4 := rfl
@[simp] theorem reg_length (p : Config.Params) (x : Nibble) : (reg p x).length = 2 := rfl
@[simp] theorem addr_length (p : Config.Params) (a : Addr) : (addr p a).length = 3 := rfl
@[simp] theorem cnt_length (p : Config.Params) (n : Nibble) : (cnt p n).length = 1 := rfl
@[simp] theorem linePrefix_length (o : Word) (h l : Byte) : (linePrefix o h l).length = 11 := rfl

/-- The length of an immediate: one digit below 16, else two. -/
theorem imm_length (p : Config.Params) (kk : Byte) : (imm p kk).length = if kk.toNat < 16 then 1 else 2 := by
  unfold imm hexMin
  split_ifs <;> rfl

end Sys2Proof.Machine
end

