-- ==== Sys2Proof/Laws/PerInstr.lean ====
section
/-! SUPPORT. Statements about every instruction as syntax, one lemma per constructor: the encoder puts a form into its
class (30_encoding.md rule R47), and the variant id stays in the table's range (R61). -/

namespace Sys2Proof.Laws.EncodesInClass

/-- The class nibble of the encoded word is the form's class, under every setting of the parameters. -/
def Statement (i : Instr) : Prop := ∀ p : Config.Params, hiNibble (encodeWith p i).1 = i.opcodeClass

/-- A byte made of two nibbles has the first as its high nibble. -/
theorem hiNibble_append (a b : Nibble) : hiNibble (a ++ b) = a := by
  revert a b
  decide

theorem cls : Statement (.cls) := fun _ => by simp only [encodeWith]; decide
theorem ret : Statement (.ret) := fun _ => by simp only [encodeWith]; decide
theorem jp (nnn : Addr) : Statement (.jp nnn) := fun _ => hiNibble_append _ _
theorem call (nnn : Addr) : Statement (.call nnn) := fun _ => hiNibble_append _ _
theorem seImm (x : Nibble) (kk : Byte) : Statement (.seImm x kk) := fun _ => hiNibble_append _ _
theorem sneImm (x : Nibble) (kk : Byte) : Statement (.sneImm x kk) := fun _ => hiNibble_append _ _
theorem seReg (x : Nibble) (y : Nibble) : Statement (.seReg x y) := fun _ => hiNibble_append _ _
theorem ldImm (x : Nibble) (kk : Byte) : Statement (.ldImm x kk) := fun _ => hiNibble_append _ _
theorem addImm (x : Nibble) (kk : Byte) : Statement (.addImm x kk) := fun _ => hiNibble_append _ _
theorem ldReg (x : Nibble) (y : Nibble) : Statement (.ldReg x y) := fun _ => hiNibble_append _ _
theorem or (x : Nibble) (y : Nibble) : Statement (.or x y) := fun _ => hiNibble_append _ _
theorem and (x : Nibble) (y : Nibble) : Statement (.and x y) := fun _ => hiNibble_append _ _
theorem xor (x : Nibble) (y : Nibble) : Statement (.xor x y) := fun _ => hiNibble_append _ _
theorem addReg (x : Nibble) (y : Nibble) : Statement (.addReg x y) := fun _ => hiNibble_append _ _
theorem sub (x : Nibble) (y : Nibble) : Statement (.sub x y) := fun _ => hiNibble_append _ _
theorem shr (x : Nibble) (y : Nibble) : Statement (.shr x y) := fun _ => hiNibble_append _ _
theorem subn (x : Nibble) (y : Nibble) : Statement (.subn x y) := fun _ => hiNibble_append _ _
theorem shl (x : Nibble) (y : Nibble) : Statement (.shl x y) := fun _ => hiNibble_append _ _
theorem sneReg (x : Nibble) (y : Nibble) : Statement (.sneReg x y) := fun _ => hiNibble_append _ _
theorem ldI (nnn : Addr) : Statement (.ldI nnn) := fun _ => hiNibble_append _ _
theorem jpV0 (nnn : Addr) : Statement (.jpV0 nnn) := fun _ => hiNibble_append _ _
theorem rnd (x : Nibble) (kk : Byte) : Statement (.rnd x kk) := fun _ => hiNibble_append _ _
theorem drw (x : Nibble) (y : Nibble) (n : Nibble) : Statement (.drw x y n) := fun _ => hiNibble_append _ _
theorem skp (x : Nibble) : Statement (.skp x) := fun p => by
  cases h : p.keyRegSel
  · simp only [encodeWith, bytesOfKey, h]; rfl
  · simp only [encodeWith, bytesOfKey, h]; exact hiNibble_append _ _
theorem sknp (x : Nibble) : Statement (.sknp x) := fun p => by
  cases h : p.keyRegSel
  · simp only [encodeWith, bytesOfKey, h]; rfl
  · simp only [encodeWith, bytesOfKey, h]; exact hiNibble_append _ _
theorem ldVxDt (x : Nibble) : Statement (.ldVxDt x) := fun _ => hiNibble_append _ _
theorem ldVxK (x : Nibble) : Statement (.ldVxK x) := fun _ => hiNibble_append _ _
theorem ldDtVx (x : Nibble) : Statement (.ldDtVx x) := fun _ => hiNibble_append _ _
theorem ldStVx (x : Nibble) : Statement (.ldStVx x) := fun _ => hiNibble_append _ _
theorem addIVx (x : Nibble) : Statement (.addIVx x) := fun _ => hiNibble_append _ _
theorem ldFVx (x : Nibble) : Statement (.ldFVx x) := fun _ => hiNibble_append _ _
theorem ldBVx (x : Nibble) : Statement (.ldBVx x) := fun _ => hiNibble_append _ _
theorem ldMemVx (x : Nibble) : Statement (.ldMemVx x) := fun _ => hiNibble_append _ _
theorem ldVxMem (x : Nibble) : Statement (.ldVxMem x) := fun _ => hiNibble_append _ _
theorem unknown : Statement (.unknown) := fun _ => by simp only [encodeWith]; decide

end Sys2Proof.Laws.EncodesInClass

namespace Sys2Proof.Laws.KindIsBounded

/-- The id is at most 34, and it is 0 exactly for `unknown` (R61, R15). -/
def Statement (i : Instr) : Prop := i.kind.toNat ≤ 34 ∧ (i.kind = 0 ↔ i = .unknown)

theorem cls : Statement (.cls) := by simp [Statement, Instr.kind]
theorem ret : Statement (.ret) := by simp [Statement, Instr.kind]
theorem jp (nnn : Addr) : Statement (.jp nnn) := by simp [Statement, Instr.kind]
theorem call (nnn : Addr) : Statement (.call nnn) := by simp [Statement, Instr.kind]
theorem seImm (x : Nibble) (kk : Byte) : Statement (.seImm x kk) := by simp [Statement, Instr.kind]
theorem sneImm (x : Nibble) (kk : Byte) : Statement (.sneImm x kk) := by simp [Statement, Instr.kind]
theorem seReg (x : Nibble) (y : Nibble) : Statement (.seReg x y) := by simp [Statement, Instr.kind]
theorem ldImm (x : Nibble) (kk : Byte) : Statement (.ldImm x kk) := by simp [Statement, Instr.kind]
theorem addImm (x : Nibble) (kk : Byte) : Statement (.addImm x kk) := by simp [Statement, Instr.kind]
theorem ldReg (x : Nibble) (y : Nibble) : Statement (.ldReg x y) := by simp [Statement, Instr.kind]
theorem or (x : Nibble) (y : Nibble) : Statement (.or x y) := by simp [Statement, Instr.kind]
theorem and (x : Nibble) (y : Nibble) : Statement (.and x y) := by simp [Statement, Instr.kind]
theorem xor (x : Nibble) (y : Nibble) : Statement (.xor x y) := by simp [Statement, Instr.kind]
theorem addReg (x : Nibble) (y : Nibble) : Statement (.addReg x y) := by simp [Statement, Instr.kind]
theorem sub (x : Nibble) (y : Nibble) : Statement (.sub x y) := by simp [Statement, Instr.kind]
theorem shr (x : Nibble) (y : Nibble) : Statement (.shr x y) := by simp [Statement, Instr.kind]
theorem subn (x : Nibble) (y : Nibble) : Statement (.subn x y) := by simp [Statement, Instr.kind]
theorem shl (x : Nibble) (y : Nibble) : Statement (.shl x y) := by simp [Statement, Instr.kind]
theorem sneReg (x : Nibble) (y : Nibble) : Statement (.sneReg x y) := by simp [Statement, Instr.kind]
theorem ldI (nnn : Addr) : Statement (.ldI nnn) := by simp [Statement, Instr.kind]
theorem jpV0 (nnn : Addr) : Statement (.jpV0 nnn) := by simp [Statement, Instr.kind]
theorem rnd (x : Nibble) (kk : Byte) : Statement (.rnd x kk) := by simp [Statement, Instr.kind]
theorem drw (x : Nibble) (y : Nibble) (n : Nibble) : Statement (.drw x y n) := by simp [Statement, Instr.kind]
theorem skp (x : Nibble) : Statement (.skp x) := by simp [Statement, Instr.kind]
theorem sknp (x : Nibble) : Statement (.sknp x) := by simp [Statement, Instr.kind]
theorem ldVxDt (x : Nibble) : Statement (.ldVxDt x) := by simp [Statement, Instr.kind]
theorem ldVxK (x : Nibble) : Statement (.ldVxK x) := by simp [Statement, Instr.kind]
theorem ldDtVx (x : Nibble) : Statement (.ldDtVx x) := by simp [Statement, Instr.kind]
theorem ldStVx (x : Nibble) : Statement (.ldStVx x) := by simp [Statement, Instr.kind]
theorem addIVx (x : Nibble) : Statement (.addIVx x) := by simp [Statement, Instr.kind]
theorem ldFVx (x : Nibble) : Statement (.ldFVx x) := by simp [Statement, Instr.kind]
theorem ldBVx (x : Nibble) : Statement (.ldBVx x) := by simp [Statement, Instr.kind]
theorem ldMemVx (x : Nibble) : Statement (.ldMemVx x) := by simp [Statement, Instr.kind]
theorem ldVxMem (x : Nibble) : Statement (.ldVxMem x) := by simp [Statement, Instr.kind]
theorem unknown : Statement (.unknown) := by simp [Statement, Instr.kind]

end Sys2Proof.Laws.KindIsBounded
end

