-- ==== Sys2Proof/Tests/Slice0.lean ====
section
/-! SUPPORT. The model's own tests. The words are written out from the encoding table (30_encoding.md rule R52), the
expected variants, texts and lines are those of spec/95_test_vectors.md. The last section holds one witness for the
hypotheses of each statement that has some. -/

namespace Sys2Proof.Tests

open Sys2Proof.Machine

/-! ## Well-formedness -/

/-- Under `KEY_REG_SEL = n3` the register of `SKP` is 0xE only (45_class_E.md rule R100). -/
theorem test_skp_of_v3_is_ill_formed : (Instr.skp 0x3#4).wellFormed Config.hardware = false := by decide

theorem test_skp_of_ve_is_well_formed : (Instr.skp 0xE#4).wellFormed Config.hardware = true := by decide

/-- Under `KEY_REG_SEL = n3` the register of `SKNP` is 0x1 only (R100). -/
theorem test_sknp_of_v5_is_ill_formed : (Instr.sknp 0x5#4).wellFormed Config.hardware = false := by decide

theorem test_sknp_of_v1_is_well_formed : (Instr.sknp 0x1#4).wellFormed Config.hardware = true := by decide

/-! ## Decoding and rendering, form by form

Each word is one of program P4 of 95_test_vectors.md. -/

theorem test_decode_cls : decode 0x00#8 0xE0#8 = .cls := by decide

theorem test_line_cls :
    renderLine Config.hardware 0x0200#16 0x00#8 0xE0#8 (.cls) =
      ascii ['0', '2', '0', '0', ' ', '0', '0', ' ', 'e', '0', ' ', 'C', 'L', 'S'] := by decide

theorem test_decode_ret : decode 0x00#8 0xEE#8 = .ret := by decide

theorem test_line_ret :
    renderLine Config.hardware 0x0200#16 0x00#8 0xEE#8 (.ret) =
      ascii ['0', '2', '0', '0', ' ', '0', '0', ' ', 'e', 'e', ' ', 'R', 'E', 'T'] := by decide

theorem test_decode_jp : decode 0x12#8 0x34#8 = .jp 0x234#12 := by decide

theorem test_line_jp :
    renderLine Config.hardware 0x0200#16 0x12#8 0x34#8 (.jp 0x234#12) =
      ascii ['0', '2', '0', '0', ' ', '1', '2', ' ', '3', '4', ' ', 'J', 'P', ' ', '2', '3', '4'] := by decide

theorem test_decode_call : decode 0x2A#8 0xBC#8 = .call 0xABC#12 := by decide

theorem test_line_call :
    renderLine Config.hardware 0x0200#16 0x2A#8 0xBC#8 (.call 0xABC#12) =
      ascii ['0', '2', '0', '0', ' ', '2', 'a', ' ', 'b', 'c', ' ', 'C', 'A', 'L', 'L', ' ', 'a', 'b',
        'c'] := by decide

theorem test_decode_seImm : decode 0x30#8 0x07#8 = .seImm 0x0#4 0x07#8 := by decide

theorem test_line_seImm :
    renderLine Config.hardware 0x0200#16 0x30#8 0x07#8 (.seImm 0x0#4 0x07#8) =
      ascii ['0', '2', '0', '0', ' ', '3', '0', ' ', '0', '7', ' ', 'S', 'E', ' ', 'V', '0', ',', ' ',
        '7'] := by decide

theorem test_decode_sneImm : decode 0x4F#8 0xFF#8 = .sneImm 0xF#4 0xFF#8 := by decide

theorem test_line_sneImm :
    renderLine Config.hardware 0x0200#16 0x4F#8 0xFF#8 (.sneImm 0xF#4 0xFF#8) =
      ascii ['0', '2', '0', '0', ' ', '4', 'f', ' ', 'f', 'f', ' ', 'S', 'N', 'E', ' ', 'V', 'f', ',', ' ',
        'f', 'f'] := by decide

theorem test_decode_seReg : decode 0x5A#8 0xB0#8 = .seReg 0xA#4 0xB#4 := by decide

theorem test_line_seReg :
    renderLine Config.hardware 0x0200#16 0x5A#8 0xB0#8 (.seReg 0xA#4 0xB#4) =
      ascii ['0', '2', '0', '0', ' ', '5', 'a', ' ', 'b', '0', ' ', 'S', 'E', ' ', 'V', 'a', ',', ' ', 'V',
        'b'] := by decide

theorem test_decode_ldImm : decode 0x60#8 0xAB#8 = .ldImm 0x0#4 0xAB#8 := by decide

theorem test_line_ldImm :
    renderLine Config.hardware 0x0200#16 0x60#8 0xAB#8 (.ldImm 0x0#4 0xAB#8) =
      ascii ['0', '2', '0', '0', ' ', '6', '0', ' ', 'a', 'b', ' ', 'L', 'D', ' ', 'V', '0', ',', ' ', 'a',
        'b'] := by decide

theorem test_decode_addImm : decode 0x7E#8 0x10#8 = .addImm 0xE#4 0x10#8 := by decide

theorem test_line_addImm :
    renderLine Config.hardware 0x0200#16 0x7E#8 0x10#8 (.addImm 0xE#4 0x10#8) =
      ascii ['0', '2', '0', '0', ' ', '7', 'e', ' ', '1', '0', ' ', 'A', 'D', 'D', ' ', 'V', 'e', ',', ' ',
        '1', '0'] := by decide

theorem test_decode_ldReg : decode 0x80#8 0x10#8 = .ldReg 0x0#4 0x1#4 := by decide

theorem test_line_ldReg :
    renderLine Config.hardware 0x0200#16 0x80#8 0x10#8 (.ldReg 0x0#4 0x1#4) =
      ascii ['0', '2', '0', '0', ' ', '8', '0', ' ', '1', '0', ' ', 'L', 'D', ' ', 'V', '0', ',', ' ', 'V',
        '1'] := by decide

theorem test_decode_or : decode 0x81#8 0x21#8 = .or 0x1#4 0x2#4 := by decide

theorem test_line_or :
    renderLine Config.hardware 0x0200#16 0x81#8 0x21#8 (.or 0x1#4 0x2#4) =
      ascii ['0', '2', '0', '0', ' ', '8', '1', ' ', '2', '1', ' ', 'O', 'R', ' ', 'V', '1', ',', ' ', 'V',
        '2'] := by decide

theorem test_decode_and : decode 0x82#8 0x32#8 = .and 0x2#4 0x3#4 := by decide

theorem test_line_and :
    renderLine Config.hardware 0x0200#16 0x82#8 0x32#8 (.and 0x2#4 0x3#4) =
      ascii ['0', '2', '0', '0', ' ', '8', '2', ' ', '3', '2', ' ', 'A', 'N', 'D', ' ', 'V', '2', ',', ' ',
        'V', '3'] := by decide

theorem test_decode_xor : decode 0x83#8 0x43#8 = .xor 0x3#4 0x4#4 := by decide

theorem test_line_xor :
    renderLine Config.hardware 0x0200#16 0x83#8 0x43#8 (.xor 0x3#4 0x4#4) =
      ascii ['0', '2', '0', '0', ' ', '8', '3', ' ', '4', '3', ' ', 'X', 'O', 'R', ' ', 'V', '3', ',', ' ',
        'V', '4'] := by decide

theorem test_decode_addReg : decode 0x84#8 0x54#8 = .addReg 0x4#4 0x5#4 := by decide

theorem test_line_addReg :
    renderLine Config.hardware 0x0200#16 0x84#8 0x54#8 (.addReg 0x4#4 0x5#4) =
      ascii ['0', '2', '0', '0', ' ', '8', '4', ' ', '5', '4', ' ', 'A', 'D', 'D', ' ', 'V', '4', ',', ' ',
        'V', '5'] := by decide

theorem test_decode_sub : decode 0x85#8 0x65#8 = .sub 0x5#4 0x6#4 := by decide

theorem test_line_sub :
    renderLine Config.hardware 0x0200#16 0x85#8 0x65#8 (.sub 0x5#4 0x6#4) =
      ascii ['0', '2', '0', '0', ' ', '8', '5', ' ', '6', '5', ' ', 'S', 'U', 'B', ' ', 'V', '5', ',', ' ',
        'V', '6'] := by decide

theorem test_decode_shr : decode 0x86#8 0x76#8 = .shr 0x6#4 0x7#4 := by decide

theorem test_line_shr :
    renderLine Config.hardware 0x0200#16 0x86#8 0x76#8 (.shr 0x6#4 0x7#4) =
      ascii ['0', '2', '0', '0', ' ', '8', '6', ' ', '7', '6', ' ', 'S', 'H', 'R', ' ', 'V', '6'] := by decide

theorem test_decode_subn : decode 0x87#8 0x87#8 = .subn 0x7#4 0x8#4 := by decide

theorem test_line_subn :
    renderLine Config.hardware 0x0200#16 0x87#8 0x87#8 (.subn 0x7#4 0x8#4) =
      ascii ['0', '2', '0', '0', ' ', '8', '7', ' ', '8', '7', ' ', 'S', 'U', 'B', 'N', ' ', 'V', '7', ',',
        ' ', 'V', '8'] := by decide

theorem test_decode_shl : decode 0x88#8 0x9E#8 = .shl 0x8#4 0x9#4 := by decide

theorem test_line_shl :
    renderLine Config.hardware 0x0200#16 0x88#8 0x9E#8 (.shl 0x8#4 0x9#4) =
      ascii ['0', '2', '0', '0', ' ', '8', '8', ' ', '9', 'e', ' ', 'S', 'H', 'L', ' ', 'V', '8'] := by decide

theorem test_decode_sneReg : decode 0x9C#8 0xD0#8 = .sneReg 0xC#4 0xD#4 := by decide

theorem test_line_sneReg :
    renderLine Config.hardware 0x0200#16 0x9C#8 0xD0#8 (.sneReg 0xC#4 0xD#4) =
      ascii ['0', '2', '0', '0', ' ', '9', 'c', ' ', 'd', '0', ' ', 'S', 'N', 'E', ' ', 'V', 'c', ',', ' ',
        'V', 'd'] := by decide

theorem test_decode_ldI : decode 0xA2#8 0xF0#8 = .ldI 0x2F0#12 := by decide

theorem test_line_ldI :
    renderLine Config.hardware 0x0200#16 0xA2#8 0xF0#8 (.ldI 0x2F0#12) =
      ascii ['0', '2', '0', '0', ' ', 'a', '2', ' ', 'f', '0', ' ', 'L', 'D', ' ', 'I', ',', ' ', '2', 'f',
        '0'] := by decide

theorem test_decode_jpV0 : decode 0xB3#8 0x00#8 = .jpV0 0x300#12 := by decide

theorem test_line_jpV0 :
    renderLine Config.hardware 0x0200#16 0xB3#8 0x00#8 (.jpV0 0x300#12) =
      ascii ['0', '2', '0', '0', ' ', 'b', '3', ' ', '0', '0', ' ', 'J', 'P', ' ', 'V', '0', ',', ' ', '3',
        '0', '0'] := by decide

theorem test_decode_rnd : decode 0xC5#8 0x0F#8 = .rnd 0x5#4 0x0F#8 := by decide

theorem test_line_rnd :
    renderLine Config.hardware 0x0200#16 0xC5#8 0x0F#8 (.rnd 0x5#4 0x0F#8) =
      ascii ['0', '2', '0', '0', ' ', 'c', '5', ' ', '0', 'f', ' ', 'R', 'N', 'D', ' ', 'V', '5', ',', ' ',
        'f'] := by decide

theorem test_decode_drw : decode 0xDA#8 0xB5#8 = .drw 0xA#4 0xB#4 0x5#4 := by decide

theorem test_line_drw :
    renderLine Config.hardware 0x0200#16 0xDA#8 0xB5#8 (.drw 0xA#4 0xB#4 0x5#4) =
      ascii ['0', '2', '0', '0', ' ', 'd', 'a', ' ', 'b', '5', ' ', 'D', 'R', 'W', ' ', 'V', 'a', ',', ' ',
        'V', 'b', ',', ' ', '5'] := by decide

theorem test_decode_skp : decode 0xE5#8 0x9E#8 = .skp 0xE#4 := by decide

theorem test_line_skp :
    renderLine Config.hardware 0x0200#16 0xE5#8 0x9E#8 (.skp 0xE#4) =
      ascii ['0', '2', '0', '0', ' ', 'e', '5', ' ', '9', 'e', ' ', 'S', 'K', 'P', ' ', 'V', 'e'] := by decide

theorem test_decode_sknp : decode 0xE5#8 0xA1#8 = .sknp 0x1#4 := by decide

theorem test_line_sknp :
    renderLine Config.hardware 0x0200#16 0xE5#8 0xA1#8 (.sknp 0x1#4) =
      ascii ['0', '2', '0', '0', ' ', 'e', '5', ' ', 'a', '1', ' ', 'S', 'K', 'N', 'P', ' ', 'V', '1'] := by decide

theorem test_decode_ldVxDt : decode 0xF3#8 0x07#8 = .ldVxDt 0x3#4 := by decide

theorem test_line_ldVxDt :
    renderLine Config.hardware 0x0200#16 0xF3#8 0x07#8 (.ldVxDt 0x3#4) =
      ascii ['0', '2', '0', '0', ' ', 'f', '3', ' ', '0', '7', ' ', 'L', 'D', ' ', 'V', '3', ',', ' ', 'D',
        'T'] := by decide

theorem test_decode_ldVxK : decode 0xF3#8 0x0A#8 = .ldVxK 0x3#4 := by decide

theorem test_line_ldVxK :
    renderLine Config.hardware 0x0200#16 0xF3#8 0x0A#8 (.ldVxK 0x3#4) =
      ascii ['0', '2', '0', '0', ' ', 'f', '3', ' ', '0', 'a', ' ', 'L', 'D', ' ', 'V', '3', ',', ' ',
        'K'] := by decide

theorem test_decode_ldDtVx : decode 0xF3#8 0x15#8 = .ldDtVx 0x3#4 := by decide

theorem test_line_ldDtVx :
    renderLine Config.hardware 0x0200#16 0xF3#8 0x15#8 (.ldDtVx 0x3#4) =
      ascii ['0', '2', '0', '0', ' ', 'f', '3', ' ', '1', '5', ' ', 'L', 'D', ' ', 'D', 'T', ',', ' ', 'V',
        '3'] := by decide

theorem test_decode_ldStVx : decode 0xF3#8 0x18#8 = .ldStVx 0x3#4 := by decide

theorem test_line_ldStVx :
    renderLine Config.hardware 0x0200#16 0xF3#8 0x18#8 (.ldStVx 0x3#4) =
      ascii ['0', '2', '0', '0', ' ', 'f', '3', ' ', '1', '8', ' ', 'L', 'D', ' ', 'S', 'T', ',', ' ', 'V',
        '3'] := by decide

theorem test_decode_addIVx : decode 0xF3#8 0x1E#8 = .addIVx 0x3#4 := by decide

theorem test_line_addIVx :
    renderLine Config.hardware 0x0200#16 0xF3#8 0x1E#8 (.addIVx 0x3#4) =
      ascii ['0', '2', '0', '0', ' ', 'f', '3', ' ', '1', 'e', ' ', 'A', 'D', 'D', ' ', 'I', ',', ' ', 'V',
        '3'] := by decide

theorem test_decode_ldFVx : decode 0xF3#8 0x29#8 = .ldFVx 0x3#4 := by decide

theorem test_line_ldFVx :
    renderLine Config.hardware 0x0200#16 0xF3#8 0x29#8 (.ldFVx 0x3#4) =
      ascii ['0', '2', '0', '0', ' ', 'f', '3', ' ', '2', '9', ' ', 'L', 'D', ' ', 'F', ',', ' ', 'V',
        '3'] := by decide

theorem test_decode_ldBVx : decode 0xF3#8 0x33#8 = .ldBVx 0x3#4 := by decide

theorem test_line_ldBVx :
    renderLine Config.hardware 0x0200#16 0xF3#8 0x33#8 (.ldBVx 0x3#4) =
      ascii ['0', '2', '0', '0', ' ', 'f', '3', ' ', '3', '3', ' ', 'L', 'D', ' ', 'B', ',', ' ', 'V',
        '3'] := by decide

theorem test_decode_ldMemVx : decode 0xF3#8 0x55#8 = .ldMemVx 0x3#4 := by decide

theorem test_line_ldMemVx :
    renderLine Config.hardware 0x0200#16 0xF3#8 0x55#8 (.ldMemVx 0x3#4) =
      ascii ['0', '2', '0', '0', ' ', 'f', '3', ' ', '5', '5', ' ', 'L', 'D', ' ', '[', 'I', ']', ',', ' ',
        'V', '3'] := by decide

theorem test_decode_ldVxMem : decode 0xF3#8 0x65#8 = .ldVxMem 0x3#4 := by decide

theorem test_line_ldVxMem :
    renderLine Config.hardware 0x0200#16 0xF3#8 0x65#8 (.ldVxMem 0x3#4) =
      ascii ['0', '2', '0', '0', ' ', 'f', '3', ' ', '6', '5', ' ', 'L', 'D', ' ', 'V', '3', ',', ' ', '[',
        'I', ']'] := by decide

/-! ## UNKNOWN (sections 2.1, 2.5, 2.7, 2.8) -/

theorem test_unknown_class_0 : decode 0x00#8 0x00#8 = .unknown ∧ decode 0x00#8 0xDF#8 = .unknown ∧
    decode 0x0E#8 0x00#8 = .unknown ∧ decode 0x0A#8 0xBC#8 = .unknown := by decide

theorem test_unknown_class_8 : decode 0x8A#8 0xB8#8 = .unknown ∧ decode 0x8A#8 0xBD#8 = .unknown ∧
    decode 0x8A#8 0xBF#8 = .unknown := by decide

theorem test_unknown_class_E : decode 0xE5#8 0x9D#8 = .unknown ∧ decode 0xE5#8 0x9F#8 = .unknown ∧
    decode 0xE5#8 0xA2#8 = .unknown ∧ decode 0xE9#8 0xE0#8 = .unknown := by decide

theorem test_unknown_class_F : decode 0xF3#8 0x08#8 = .unknown ∧ decode 0xF3#8 0x30#8 = .unknown ∧
    decode 0xF3#8 0x70#8 = .unknown ∧ decode 0xFF#8 0xFF#8 = .unknown := by decide

/-- Program P3, third line. -/
theorem test_line_unknown :
    renderLine Config.hardware 0x0204#16 0xE5#8 0x9F#8 .unknown =
      ascii ['0', '2', '0', '4', ' ', 'e', '5', ' ', '9', 'f', ' ', 'U', 'N', 'K', 'N', 'O', 'W', 'N'] := by decide

/-! ## Corner cases -/

/-- The ignored nibbles (sections 2.1, 2.4, 2.7). -/
theorem test_ignored_nibbles : decode 0x0F#8 0xE0#8 = .cls ∧ decode 0x01#8 0xEE#8 = .ret ∧
    decode 0x5A#8 0xBF#8 = .seReg 0xA#4 0xB#4 ∧ decode 0x9C#8 0xD7#8 = .sneReg 0xC#4 0xD#4 ∧
    decode 0xEF#8 0x9E#8 = .skp 0xE#4 := by decide

/-- Section 2.7 under the alternative setting. -/
theorem test_key_register_under_n1 :
    decodeWith { Config.hardware with keyRegSel := .n1 } 0xE5#8 0x9E#8 = .skp 0x5#4 ∧
      decodeWith { Config.hardware with keyRegSel := .n1 } 0xEF#8 0xA1#8 = .sknp 0xF#4 := by decide

/-- The 12-bit address at its ends (section 2.2). -/
theorem test_address_ends : decode 0x10#8 0x05#8 = .jp 0x005#12 ∧ decode 0x1F#8 0xFF#8 = .jp 0xFFF#12 ∧
    decode 0x11#8 0x34#8 = .jp 0x134#12 := by decide

/-- Section 2.9. -/
theorem test_numbers : hexMin false 0x00#8 = ascii ['0'] ∧ hexMin false 0x0F#8 = ascii ['f'] ∧
    hexMin false 0x10#8 = ascii ['1', '0'] ∧ hex2 false 0x05#8 = ascii ['0', '5'] ∧
    hex4 false 0xFFFE#16 = ascii ['f', 'f', 'f', 'e'] ∧ addr Config.hardware 0x0FF#12 = ascii ['0', 'f', 'f'] := by
  decide

/-- R119: under `OPERAND_HEX_UPPER = true` only the operand's digits change. -/
theorem test_upper_case_operands :
    renderLine { Config.hardware with operandHexUpper := true } 0x0ABC#16 0x6C#8 0xAB#8 (.ldImm 0xC#4 0xAB#8) =
      ascii ['0', 'a', 'b', 'c', ' ', '6', 'c', ' ', 'a', 'b', ' ', 'L', 'D', ' ', 'V', 'C', ',', ' ', 'A', 'B'] := by
  decide

/-- Section 2.11, two rows. -/
theorem test_ports : decodePorts Config.hardware 0xE5#8 0x9E#8 =
      { kind := 24, unknown := false, x := 0xE, y := 0x9, n := 0xE, kk := 0x9E, nnn := 0x59E } ∧
    decodePorts Config.hardware 0xE5#8 0x9F#8 =
      { kind := 0, unknown := true, x := 0x5, y := 0x9, n := 0xF, kk := 0x9F, nnn := 0x59F } := by decide

/-! ## The encoder, and reading bytes -/

/-- Section 2.13 and rows 14, 16 and 24 of R52, written the other way. -/
theorem test_encode : encodeWord Config.hardware (.addReg 0xA#4 0xB#4) = 0x8AB4#16 ∧
    encodeWord Config.hardware (.shr 0x6#4 0x7#4) = 0x8676#16 ∧ encodeWord Config.hardware (.skp 0xE#4) = 0xE09E#16 ∧
    encodeWord Config.hardware (.jp 0x234#12) = 0x1234#16 := by decide

theorem test_decodeBytes_leaves_the_rest :
    (decodeBytes [0x12#8, 0x34#8, 0x56#8]).toOption = some (.jp 0x234#12, [0x56#8]) := by decide

/-- A partial word is not decoded (20_memory.md rule R42). -/
theorem test_decodeBytes_partial_word : (decodeBytes [0x12#8]).toOption = none := by decide

theorem test_decodeTableWord : decodeTableWord 16 0xE59E = some (.skp 0xE#4) ∧ decodeTableWord 17 0 = none := by decide

theorem test_rom_form : decodeRom Config.hardware 0x5ABF#16 = .seReg 0xA#4 0xB#4 ∧
    decodeRom Config.hardware 0x8AB8#16 = .unknown := by decide

/-! ## The driver -/

/-- The driver's start on an image. -/
def loaded (image : List Byte) : State := (State.reset.load image).getD State.reset

/-- The image of program P1. -/
def imageP1 : List Byte := [0x00#8, 0xE0#8, 0x12#8, 0x00#8]

/-- The image of program P3, of odd length. -/
def imageP3 : List Byte := [0x60#8, 0x00#8, 0x8A#8, 0xB8#8, 0xE5#8, 0x9F#8, 0xF3#8, 0x75#8, 0x00#8, 0xE0#8, 0xFF#8]

/-- The state of a next outcome. -/
def nextOf (o : Host.Outcome State Fault Refusal) : Option State :=
  match o with
  | .next s => some s
  | .fault _ => none
  | .refused _ => none

/-- The reason of a refused outcome. -/
def refusalOf (o : Host.Outcome State Fault Refusal) : Option Refusal :=
  match o with
  | .next _ => none
  | .fault _ => none
  | .refused r => some r

/-- P1, step 0: the line and the offset. -/
theorem test_step_emits_and_advances :
    (nextOf (step (loaded imageP1))).map (fun s => (s.offset, s.lines)) =
      some (0x202, [ascii ['0', '2', '0', '0', ' ', '0', '0', ' ', 'e', '0', ' ', 'C', 'L', 'S']]) := by decide

/-- P1, step 1: the jump is printed, not followed. -/
theorem test_jump_is_not_followed :
    (nextOf (step { loaded imageP1 with offset := 0x202 })).map (fun s => (s.offset, s.lines)) =
      some (0x204, [ascii ['0', '2', '0', '2', ' ', '1', '2', ' ', '0', '0', ' ', 'J', 'P', ' ', '2', '0', '0']]) := by
  decide

/-- P1, end. -/
theorem test_run_ends : refusalOf (step { loaded imageP1 with offset := 0x204 }) = some .runEnded := by decide

/-- P3, step 1: an unknown word does not stop the run. -/
theorem test_unknown_goes_on :
    (nextOf (step { loaded imageP3 with offset := 0x202 })).map (·.offset) = some 0x204 := by decide

/-- P3, end: the eleventh byte is not read. -/
theorem test_odd_length_ends : refusalOf (step { loaded imageP3 with offset := 0x20A }) = some .runEnded := by decide

/-- P5: the odd offset. -/
theorem test_call_at_odd_offset : ((decodeCall (loaded imageP1).mem 0x0201#16).toOption.map (·.1)) = some .unknown := by
  decide

/-- P5: the refused calls. -/
theorem test_refused_calls : (decodeCall (loaded imageP1).mem 0x0203#16).toOption = none ∧
    (decodeCall (loaded imageP1).mem 0x0204#16).toOption = none ∧
    (decodeCall (loaded imageP1).mem 0xFFFF#16).toOption = none := by decide

/-- P6: the empty program. -/
theorem test_empty_program : refusalOf (step (loaded [])) = some .runEnded ∧
    refusalOf (step (loaded [0x00#8])) = some .runEnded := by decide

/-- P7: the changed byte is seen by the next run. -/
theorem test_changed_byte_is_seen :
    ((decodeCall ((loaded imageP1).pokeByte 0x203 0x02#8).restart.mem 0x0202#16).toOption.map (·.1)) =
      some (.jp 0x202#12) := by decide

/-- A word placed for the next step is the one that runs, at the first and at the last decodable offset. -/
theorem test_placed_word_runs :
    (nextOf (step (State.reset.withFetchWord 16 0xDAB5))).map (·.lines.map List.length) = some [24] ∧
      (nextOf (step ({ State.reset with offset := 0xFFFE }.withFetchWord 16 0x6005))).map (·.lines) =
        some [ascii ['f', 'f', 'f', 'e', ' ', '6', '0', ' ', '0', '5', ' ', 'L', 'D', ' ', 'V', '0', ',', ' ', '5']] := by
  decide

theorem test_reset_invariant : State.reset.DriverInv := by decide

/-! ## Witnesses: hypotheses of the statements, met together -/

/-- A buffer of the greatest size, with nothing listed. -/
def fullBuffer : Memory := ⟨[], 0x10000⟩

theorem witness_DecodeOfEncodeIsTheInstruction : (Instr.skp 0xE#4).wellFormed Config.hardware = true ∧
    (Instr.skp 0x5#4).wellFormed { Config.hardware with keyRegSel := .n1 } = true ∧
    (Instr.drw 0xF#4 0xF#4 0xF#4).wellFormed Config.hardware = true := by decide

theorem witness_DecodedWordKeepsEveryTestedBit : decodeWith Config.hardware 0x5A#8 0xBF#8 ≠ .unknown ∧
    decodeWith Config.hardware 0xEF#8 0xA1#8 ≠ .unknown := by decide

theorem witness_KeyRegisterFollowsSelectorNibble : Config.hardware.keyRegSel = .n3 ∧
    ({ Config.hardware with keyRegSel := .n1 } : Config.Params).keyRegSel = .n1 ∧
    ¬ (hiNibble 0xE5#8 = 0xE ∧ (0x9F#8 = 0x9E#8 ∨ 0x9F#8 = 0xA1#8)) ∧
    ¬ (hiNibble 0xD5#8 = 0xE ∧ (0x9E#8 = 0x9E#8 ∨ 0x9E#8 = 0xA1#8)) := by decide

theorem witness_VariantIdsFollowTheTable : (∃ r, rom[0]? = some r) ∧ ∃ r, rom[33]? = some r := ⟨⟨_, rfl⟩, _, rfl⟩

theorem witness_PrefixPaddedOperandUnpadded : (0x00#8).toNat < 16 ∧ (0x0F#8).toNat < 16 := by decide

/-- At an offset inside P1's buffer, and at the last decodable offset. -/
theorem witness_FetchGivesTwoBytesHighFirst :
    (0x202 + 1 < (loaded imageP1).mem.size ∧ 0x202 + 1 < 65536 ∧ 0x200 ≠ 0x202 ∧ 0x200 ≠ 0x202 + 1) ∧
      (0xFFFE + 1 < fullBuffer.size ∧ 0xFFFE + 1 < 65536 ∧ 0 ≠ 0xFFFE ∧ 0 ≠ 0xFFFE + 1) := by decide

/-- At `BUF_LEN - 1`, for a call and for a meaning. -/
theorem witness_CallOutsideBufferIsRefused : ¬ (0x0203#16).toNat + 1 < (loaded imageP1).mem.size ∧
    ¬ ({ loaded imageP1 with offset := 0x203 } : State).offset + 1 < (loaded imageP1).mem.size := by decide

/-- At an odd offset, at the last decodable offset, and the buffer of the rule's example. -/
theorem witness_AnyOffsetInBufferIsDecoded :
    ((0x0201#16).toNat + 1 < (loaded imageP1).mem.size ∧ (0x0201#16).toNat + 1 < 65536) ∧
      ((0xFFFE#16).toNat + 1 < fullBuffer.size ∧ (0xFFFE#16).toNat + 1 < 65536) ∧
      (0x204 ≤ (loaded imageP1).mem.size ∧ (loaded imageP1).mem.byteAt 0x201 = 0xE0 ∧
        (loaded imageP1).mem.byteAt 0x202 = 0x12) ∧ (loaded imageP1).DriverInv := by decide

theorem witness_WrittenByteReadsBackOthersStay :
    (0xFFFF < fullBuffer.size ∧ 0xFFFF < 65536 ∧ 0xFFFE ≠ 0xFFFF) ∧
      (0x203 < (loaded imageP1).mem.size ∧ 0x203 < 65536 ∧ 0x202 ≠ 0x203) := by decide

theorem witness_BufferChangeIsSeenByNextCall : (∃ t, exec .cls (loaded imageP1) = .next t) ∧
    (0x0202#16).toNat + 1 < (loaded imageP1).mem.size ∧ (0x0202#16).toNat + 1 < 65536 := by
  exact ⟨⟨_, rfl⟩, by decide⟩

/-- Two buffers that differ elsewhere. -/
theorem witness_CallDependsOnlyOnItsTwoBytes :
    (0x0200#16).toNat + 1 < (loaded imageP1).mem.size ∧
      (0x0200#16).toNat + 1 < ((loaded imageP1).pokeByte 0x203 0x02#8).mem.size ∧
      (loaded imageP1).mem.byteAt (0x0200#16).toNat =
        ((loaded imageP1).pokeByte 0x203 0x02#8).mem.byteAt (0x0200#16).toNat ∧
      (loaded imageP1).mem.byteAt ((0x0200#16).toNat + 1) =
        ((loaded imageP1).pokeByte 0x203 0x02#8).mem.byteAt ((0x0200#16).toNat + 1) := by decide

theorem witness_BlockPortsShowTheDecodeCall :
    ∃ i line, decodeCall (loaded imageP1).mem 0x0202#16 = .ok (i, line) := ⟨_, _, rfl⟩

/-- At the first and at the last word of P1. -/
theorem witness_StepRunsDecodedInstruction :
    ((loaded imageP1).offset + 1 < 0x200 + (loaded imageP1).len ∧ (loaded imageP1).offset + 1 < (loaded imageP1).mem.size ∧
        (loaded imageP1).offset + 1 < 65536) ∧
      (0x202 + 1 < 0x200 + (loaded imageP1).len ∧ 0x202 + 1 < (loaded imageP1).mem.size ∧ 0x202 + 1 < 65536) := by decide

theorem witness_StepEmitsLineAndAdvancesByTwo : (loaded imageP1).ImageFits ∧
    (loaded imageP1).offset + 1 < 0x200 + (loaded imageP1).len := by decide

/-- Each refusal of a step, and neither. -/
theorem witness_StepRefusesAtEndOfRun :
    ¬ ({ loaded imageP1 with offset := 0x204 } : State).offset + 1 < 0x200 + (loaded imageP1).len ∧
      (({ loaded imageP1 with offset := 0x204, len := 9 } : State).offset + 1 < 0x200 + 9 ∧
        ¬ ({ loaded imageP1 with offset := 0x204, len := 9 } : State).CallOk) ∧
      (0x200 + 1 < 0x200 + (loaded imageP1).len ∧ (loaded imageP1).CallOk) := by decide

theorem witness_EveryFormLeavesBufferAndAdvances : ∃ t, exec (.drw 0xA#4 0xB#4 0x5#4) (loaded imageP1) = .next t :=
  ⟨_, rfl⟩

/-- A state in which every form completes, one in which none does, and the last offset at which a form completes. -/
theorem witness_EveryFormCompletesInsideBuffer : (loaded imageP1).CallOk ∧
    ¬ ({ loaded imageP1 with offset := 0x203 } : State).CallOk ∧
    (({ offset := 0xFFFE, mem := fullBuffer, len := 0, lines := [] } : State).CallOk) := by decide

/-- The one hypothesis of ClearScreenFormEmitsCls, ReturnFormEmitsItsText, AddressFormsEmitTheirTexts,
RegisterImmediateFormsEmitTheirTexts, RegisterPairFormsEmitTheirTexts, ArithmeticFormsEmitTheirTexts,
KeyFormsEmitTheirTexts, ClassFFormsEmitTheirTexts and UnknownFormEmitsItsText. -/
theorem witness_FormEmitsItsText : (loaded imageP1).CallOk := by decide

theorem witness_UnknownWordDoesNotStopTheRun :
    (({ loaded imageP3 with offset := 0x202 } : State).ImageFits ∧ 0x202 + 1 < 0x200 + (loaded imageP3).len ∧
        decode ((loaded imageP3).mem.byteAt 0x202) ((loaded imageP3).mem.byteAt (0x202 + 1)) = .unknown) ∧
      ∃ t, step { loaded imageP1 with offset := 0x202 } = .next t := by
  exact ⟨by decide, _, rfl⟩

/-- Two states with the same word at the offset and other bytes elsewhere. -/
theorem witness_LineDependsOnlyOnOffsetAndWord :
    (∃ t t', exec .cls (loaded imageP1) = .next t ∧ exec .cls (loaded [0x00#8, 0xE0#8]) = .next t') ∧
      (loaded imageP1).offset = (loaded [0x00#8, 0xE0#8]).offset ∧
      (loaded imageP1).mem.byteAt 0x200 = (loaded [0x00#8, 0xE0#8]).mem.byteAt 0x200 ∧
      (loaded imageP1).mem.byteAt 0x201 = (loaded [0x00#8, 0xE0#8]).mem.byteAt 0x201 := by
  exact ⟨⟨_, _, rfl, rfl⟩, by decide⟩

theorem witness_FirstWordDecodedIsAtBase : ∃ t, State.reset.load imageP1 = some t := ⟨_, rfl⟩

theorem witness_EveryStepKeepsDriverInvariant :
    (loaded imageP1).DriverInv ∧ ∃ t, step (loaded imageP1) = .next t := by
  exact ⟨by decide, _, rfl⟩

/-- An image that fits. One that does not has more than 65024 bytes. -/
theorem witness_LoadPlacesImageAndMeetsInvariant : State.reset.mem.wf ∧ (∃ t, State.reset.load imageP1 = some t) ∧
    imageP1[3]? = some 0x00#8 ∧ 0x1FF < 0x200 := by
  exact ⟨by decide, ⟨_, rfl⟩, by decide⟩

/-- After the load and after one step of P1, with a line of the run. -/
theorem witness_RunTakesHalfTheLengthInSteps : (loaded imageP1).DriverInv ∧
    ((nextOf (step (loaded imageP1))).getD State.reset).DriverInv ∧ 1 < (loaded imageP1).len / 2 := by decide

/-- Images of no and of one byte. -/
theorem witness_EmptyProgramGivesNoLine : (([] : List Byte).length ≤ 1 ∧ ∃ t, State.reset.load [] = some t) ∧
    ([0x00#8].length ≤ 1 ∧ ∃ t, State.reset.load [0x00#8] = some t) := by
  exact ⟨⟨by decide, _, rfl⟩, by decide, _, rfl⟩

theorem witness_OddLastByteIsNeverRead : (loaded imageP3).DriverInv ∧ (loaded imageP3).len % 2 = 1 ∧
    ∃ t, step (loaded imageP3) = .next t := by
  exact ⟨by decide, by decide, _, rfl⟩

/-- At reset, and at the last offset with room for a word. -/
theorem witness_PlacedWordRunsAsNextStep : State.reset.offset + 1 < 65536 ∧
    ({ State.reset with offset := 0xFFFE } : State).offset + 1 < 65536 := by decide

end Sys2Proof.Tests
end

section
/-! PROOFS. The statements of 10_state.md: the wires of the blocks, the frame of every form, reset and the driver's
invariant. First the facts they share: what a successful decode call and the ports show, how long a text is, and how the
listing grows. -/

namespace Sys2Proof.Machine

open Sys2Proof.Claims

/-! ## The lengths of texts and lines (R133) -/

@[simp] theorem ascii_length (cs : List Char) : (ascii cs).length = cs.length := List.length_map _
@[simp] theorem comma_length : comma.length = 2 := rfl

/-- A text that is a mnemonic of 3 or 4 characters, a register and an immediate has 8 to 10 characters. -/
theorem regImmText_length (p : Config.Params) {head : Text} (x : Nibble) (kk : Byte) (h3 : 3 ≤ head.length)
    (h4 : head.length ≤ 4) :
    8 ≤ (head ++ reg p x ++ comma ++ imm p kk).length ∧ (head ++ reg p x ++ comma ++ imm p kk).length ≤ 10 := by
  have himm := imm_length p kk
  simp only [List.length_append, reg_length, comma_length]
  split at himm <;> omega

/-- The fourth field has 3 (`CLS`) to 13 (`DRW`) characters. -/
theorem renderText_length_bounds (i : Instr) :
    3 ≤ (renderText Config.hardware i).length ∧ (renderText Config.hardware i).length ≤ 13 := by
  have widen {n : Nat} (h : 8 ≤ n ∧ n ≤ 10) : 3 ≤ n ∧ n ≤ 13 := by omega
  cases i with
  | seImm x kk => exact widen (regImmText_length _ x kk (by decide) (by decide))
  | sneImm x kk => exact widen (regImmText_length _ x kk (by decide) (by decide))
  | ldImm x kk => exact widen (regImmText_length _ x kk (by decide) (by decide))
  | addImm x kk => exact widen (regImmText_length _ x kk (by decide) (by decide))
  | rnd x kk => exact widen (regImmText_length _ x kk (by decide) (by decide))
  | _ => exact ⟨Nat.le_of_ble_eq_true rfl, Nat.le_of_ble_eq_true rfl⟩

/-- A line is 11 leading characters (R127) and the text, so it has 14 to 24 characters. -/
theorem line_length_bounds (offset : Word) (high low : Byte) (i : Instr) :
    14 ≤ (renderLine Config.hardware offset high low i).length ∧
      (renderLine Config.hardware offset high low i).length ≤ 24 := by
  have h := renderText_length_bounds i
  rw [renderLine, List.length_append, linePrefix_length]
  omega

/-! ## The wires of DECODE (R15) -/

/-- The DECODE wires for the extracted fields `f` when the dispatch has chosen `i`. -/
def portsOf (f : Fields) (i : Instr) : DecodePorts where
  kind := i.kind
  unknown := unknownOutput i.kind
  x := xPort f i
  y := f.n2
  n := f.n3
  kk := f.low
  nnn := f.nnn

theorem decodePorts_eq (p : Config.Params) (high low : Byte) :
    decodePorts p high low = portsOf (fields p high low) (decodeWith p high low) := rfl

/-- The wires show the variant `i`: every field of `i` is the slice of `f` on the port that carries it. -/
def ShownBy (f : Fields) (i : Instr) : Prop := (portsOf f i).variant = some i

theorem decodeClass0_shown (f : Fields) : ShownBy f (decodeClass0 f) := by
  unfold decodeClass0
  split <;> rfl

theorem decodeClass8_shown (f : Fields) : ShownBy f (decodeClass8 f) := by
  unfold decodeClass8
  split <;> rfl

theorem decodeClassE_shown (f : Fields) : ShownBy f (decodeClassE f) := by
  unfold decodeClassE
  split <;> rfl

theorem decodeClassF_shown (f : Fields) : ShownBy f (decodeClassF f) := by
  unfold decodeClassF
  split <;> rfl

/-- Whatever the dispatch chooses takes its fields from the slices that the wires carry. -/
theorem dispatch_shown (f : Fields) : ShownBy f (dispatch f) := by
  unfold dispatch
  split
  case h_1 => exact decodeClass0_shown f
  case h_9 => exact decodeClass8_shown f
  case h_15 => exact decodeClassE_shown f
  case h_16 => exact decodeClassF_shown f
  all_goals rfl

/-- Settles O13: the dispatch takes every operand from the slice on the port that carries it, class by class. -/
theorem portsCarryTheVariant : Obligations.PortsCarryTheVariant := by
  intro p high low
  rw [decodePorts_eq]
  exact dispatch_shown (fields p high low)

/-- Settles O12: the raw slices are the extracted fields themselves, with `key = n3` on this hardware; the variant is O13. -/
theorem fieldPortsCarryRawSlices : Obligations.FieldPortsCarryRawSlices := by
  intro high low
  exact ⟨rfl, beq_iff_eq, rfl, rfl, rfl, rfl, rfl, portsCarryTheVariant Config.hardware high low⟩

/-! ## The decode call on the wires of the three blocks (R14 to R16) -/

/-- A decode call, in full: the decode of the two bytes at the offset and its line, else the refusal. -/
theorem decodeCall_eq (m : Memory) (offset : Word) :
    decodeCall m offset =
      if offset.toNat + 1 < m.size ∧ offset.toNat + 1 < 65536 then
        let high := m.byteAt offset.toNat
        let low := m.byteAt (offset.toNat + 1)
        .ok (decode high low, renderLine Config.hardware offset high low (decode high low))
      else .error .outOfBuffer := by
  unfold decodeCall
  rw [fetch_eq]
  by_cases hin : offset.toNat + 1 < m.size ∧ offset.toNat + 1 < 65536
  · rw [if_pos hin, if_pos hin]
  · rw [if_neg hin, if_neg hin]

/-- If a decode call has a result, both bytes are in the buffer, and the result is their decode and its line. -/
theorem decodeCall_ok {m : Memory} {offset : Word} {i : Instr} {line : Text} (h : decodeCall m offset = .ok (i, line)) :
    (offset.toNat + 1 < m.size ∧ offset.toNat + 1 < 65536) ∧
      decode (m.byteAt offset.toNat) (m.byteAt (offset.toNat + 1)) = i ∧
      renderLine Config.hardware offset (m.byteAt offset.toNat) (m.byteAt (offset.toNat + 1)) i = line := by
  rw [decodeCall_eq] at h
  split at h
  · rename_i hin
    cases h
    exact ⟨hin, rfl, rfl⟩
  · cases h

/-- FETCH on its wires where both bytes are in the buffer. -/
theorem fetchPorts_of_mem {m : Memory} {offset : Word}
    (hin : offset.toNat + 1 < m.size ∧ offset.toNat + 1 < 65536) :
    fetchPorts m offset = some
      { bufAddr0 := offset, bufAddr1 := offset + 1, bufData0 := m.byteAt offset.toNat
        bufData1 := m.byteAt (offset.toNat + 1), high := m.byteAt offset.toNat, low := m.byteAt (offset.toNat + 1) } := by
  unfold fetchPorts
  rw [fetch_eq, if_pos hin]

/-- RENDER, fed by DECODE's wires, always has a line: the one of the decoded variant. -/
theorem renderPorts_decodePorts (p : Config.Params) (offset : Word) (high low : Byte) :
    renderPorts p offset high low (decodePorts p high low) = some
      { line := renderLine p offset high low (decodeWith p high low)
        lineLen := BitVec.ofNat 5 (renderLine p offset high low (decodeWith p high low)).length } := by
  unfold renderPorts
  rw [portsCarryTheVariant p high low]

/-- The three blocks in series where both bytes are in the buffer. -/
theorem blockPorts_of_mem (p : Config.Params) {m : Memory} {offset : Word}
    (hin : offset.toNat + 1 < m.size ∧ offset.toNat + 1 < 65536) :
    blockPorts p m offset =
      let high := m.byteAt offset.toNat
      let low := m.byteAt (offset.toNat + 1)
      let line := renderLine p offset high low (decodeWith p high low)
      some (⟨offset, offset + 1, high, low, high, low⟩, decodePorts p high low, ⟨line, BitVec.ofNat 5 line.length⟩) := by
  unfold blockPorts
  rw [fetchPorts_of_mem hin]
  simp only [renderPorts_decodePorts]

/-- Settles O30: a call with a result has both bytes in the buffer, so `offset + 1` does not wrap, and a line of at most 24
characters has its length on the five wires of `line_len`. -/
theorem blockPortsShowTheDecodeCall : Obligations.BlockPortsShowTheDecodeCall := by
  intro m offset i line hcall
  obtain ⟨hin, rfl, rfl⟩ := decodeCall_ok hcall
  obtain ⟨h14, h24⟩ := line_length_bounds offset (m.byteAt offset.toNat) (m.byteAt (offset.toNat + 1))
    (decode (m.byteAt offset.toNat) (m.byteAt (offset.toNat + 1)))
  have haddr : (offset + 1).toNat = offset.toNat + 1 :=
    (BitVec.toNat_add offset 1).trans (Nat.mod_eq_of_lt hin.2)
  exact ⟨_, _, _, blockPorts_of_mem Config.hardware hin, rfl, haddr, rfl, rfl, rfl, rfl,
    portsCarryTheVariant Config.hardware _ _, rfl, Nat.mod_eq_of_lt (Nat.lt_of_le_of_lt h24 (by decide)), h14, h24⟩

/-! ## The frame of a form, and what its line depends on (R21, R28, R65) -/

/-- Settles O34: a form that completes is one emission and one advance. -/
theorem everyFormLeavesBufferAndAdvances : Obligations.EveryFormLeavesBufferAndAdvances := by
  intro i s t h
  obtain ⟨-, rfl⟩ := exec_next h
  exact ⟨rfl, fun _ => rfl, rfl, rfl, _, rfl, line_length_bounds _ _ _ i⟩

/-- The line of a text reads the offset and the two bytes there, and nothing else of the state. -/
theorem lineOf_congr {s s' : State} (text : Text) (hoffset : s.offset = s'.offset) (hhigh : highAt s = highAt s')
    (hlow : lowAt s = lowAt s') : lineOf text s = lineOf text s' := by
  show linePrefix (BitVec.ofNat 16 s.offset) (highAt s) (lowAt s) ++ text = _
  rw [hoffset, hhigh, hlow]
  rfl

/-- Settles O46: both states take the line of the same text, which reads the offset and the word only. -/
theorem lineDependsOnlyOnOffsetAndWord : Obligations.LineDependsOnlyOnOffsetAndWord := by
  intro i s s' t t' h h' hoffset hhigh hlow
  obtain ⟨-, rfl⟩ := exec_next h
  obtain ⟨-, rfl⟩ := exec_next h'
  refine ⟨lineOf (renderText Config.hardware i) s, rfl, ?_⟩
  rw [lineOf_congr _ hoffset hhigh hlow]
  rfl

/-! ## Reset and the driver's invariant (R27, R40, R160, R161) -/

/-- Settles O48: the fields are reset's own, and `BASE + 1 < BASE + 0` fails, so the loop is not enabled. -/
theorem resetIsBaseWithTheEmptyProgram : Obligations.ResetIsBaseWithTheEmptyProgram := by
  have hstep : step State.reset = .refused .runEnded := by
    rw [step_eq]
    exact if_neg (by decide)
  exact ⟨rfl, rfl, rfl, rfl, rfl, hstep⟩

/-- Settles O49: the empty buffer is in canonical form, and no line is the listing of no word. -/
theorem resetMeetsDriverInvariant : Obligations.ResetMeetsDriverInvariant :=
  ⟨⟨reset_mem_wf, Nat.le_refl _⟩, rfl, Nat.le_refl _, rfl⟩

/-- The listing of one word more ends with that word's line. -/
theorem listing_succ (m : Memory) (k : Nat) : listing m (k + 1) = listing m k ++ [lineAt m (0x200 + 2 * k)] := by
  simp only [listing, List.range_succ, List.map_append, List.map_cons, List.map_nil, base_eq]

/-- A step that answers takes the line of the word at the offset, advances by 2 and leaves the rest. -/
theorem step_next_fields {s t : State} (h : step s = .next t) :
    s.offset + 1 < 0x200 + s.len ∧ t.offset = s.offset + 2 ∧ t.mem = s.mem ∧ t.len = s.len ∧
      t.lines = s.lines ++ [lineAt s.mem s.offset] := by
  obtain ⟨henabled, -, rfl⟩ := step_next h
  exact ⟨henabled, rfl, rfl, rfl, rfl⟩

/-- Settles O50: the step takes the line of the word at `BASE + 2 * k`, the next one of the listing; the loop condition says
that this word is complete. -/
theorem everyStepKeepsDriverInvariant : Obligations.EveryStepKeepsDriverInvariant := by
  rintro s t ⟨hfits, hoffset, -, hlines⟩ hstep
  obtain ⟨henabled, htoffset, htmem, htlen, htlines⟩ := step_next_fields hstep
  have hcount : t.lines.length = s.lines.length + 1 := by rw [htlines, List.length_append, List.length_singleton]
  rw [base_eq] at hoffset
  refine ⟨?fits, ?offset, ?complete, ?lines⟩
  case fits => rwa [State.ImageFits, htmem, htlen]
  case offset => rw [htoffset, hcount, hoffset, base_eq]; omega
  case complete => rw [hcount, htlen]; omega
  case lines => rw [hcount, htmem, listing_succ, ← hlines, ← hoffset, htlines]

end Sys2Proof.Machine
end

section
/-! PROOFS. The statements of 20_memory.md: FETCH and the refusal outside the buffer, what a write changes, what a call and a
meaning depend on, the load, and the step. First the facts they share: the spelling of the line's first 11 characters, reads
and fetches after a write, and decode calls and meanings on the two sides of the end of the buffer. -/

namespace Sys2Proof.Machine

open Sys2Proof.Claims

/-! ## The line's first 11 characters, over natural numbers (R119 to R121, R127) -/

theorem toNat_hiNibble (b : Byte) : (hiNibble b).toNat = b.toNat / 16 := by
  have hlt : b.toNat / 16 < 16 := by omega
  rw [hiNibble, BitVec.extractLsb'_toNat, Nat.shiftRight_eq_div_pow]
  exact Nat.mod_eq_of_lt hlt

theorem toNat_loNibble (b : Byte) : (loNibble b).toNat = b.toNat % 16 := by
  rw [loNibble, BitVec.extractLsb'_toNat, Nat.shiftRight_zero]

theorem toNat_highByte (w : Word) : (highByte w).toNat = w.toNat / 256 := by
  have hlt : w.toNat / 256 < 256 := by omega
  rw [highByte, BitVec.extractLsb'_toNat, Nat.shiftRight_eq_div_pow]
  exact Nat.mod_eq_of_lt hlt

theorem toNat_lowByte (w : Word) : (lowByte w).toNat = w.toNat % 256 := by
  rw [lowByte, BitVec.extractLsb'_toNat, Nat.shiftRight_zero]

theorem hexDigit_eq_digit : ∀ d : Nibble, hexDigit false d = digit d.toNat := by decide

theorem hex2_eq_hexOf (b : Byte) : hex2 false b = hexOf 2 b.toNat := by
  have hhi : b.toNat / 16 % 16 = b.toNat / 16 := by omega
  simp only [hex2, hexDigit_eq_digit, toNat_hiNibble, toNat_loNibble, hexOf, hhi, List.nil_append, List.cons_append]

theorem hex4_eq_hexOf (w : Word) : hex4 false w = hexOf 4 w.toNat := by
  have h1 : w.toNat / 16 / 16 = w.toNat / 256 := by omega
  have h2 : w.toNat / 16 % 16 = w.toNat % 256 / 16 % 16 := by omega
  have h3 : w.toNat % 16 = w.toNat % 256 % 16 := by omega
  simp only [hex4, hex2_eq_hexOf, toNat_highByte, toNat_lowByte, hexOf, h1, h2, h3, List.nil_append, List.cons_append]

theorem linePrefix_eq_prefixText (offset : Word) (high low : Byte) :
    linePrefix offset high low = prefixText offset.toNat high.toNat low.toNat := by
  simp only [linePrefix, hex4_eq_hexOf, hex2_eq_hexOf]
  rfl

/-- Where the offset fits its 16-bit port, the line of a meaning is the one the statements spell. -/
theorem lineOf_eq_lineFor {s : State} (text : Text) (hport : s.offset < 65536) : lineOf text s = lineFor s text := by
  rw [lineOf, linePrefix_eq_prefixText, BitVec.toNat_ofNat, Nat.mod_eq_of_lt hport]
  rfl

/-! ## Reads and fetches (R29, R30) -/

theorem read_eq (m : Memory) (a : Nat) :
    m.read a = if a < m.size ∧ a < 65536 then some (m.byteAt a) else none := by
  simp only [Memory.read, hasIndex_iff]

theorem fetch_of_mem {m : Memory} {a : Nat} (hin : a + 1 < m.size ∧ a + 1 < 65536) :
    m.fetch a = some (m.byteAt a, m.byteAt (a + 1)) := by
  rw [fetch_eq, if_pos hin]

theorem byteAt_write_same {m : Memory} {a : Nat} (hin : a < m.size ∧ a < 65536) (v : Byte) :
    (m.write a v).byteAt a = v := by
  rw [byteAt_write ((hasIndex_iff m a).2 hin), if_pos rfl]

theorem byteAt_write_ne (m : Memory) {a b : Nat} (hne : b ≠ a) (v : Byte) : (m.write a v).byteAt b = m.byteAt b := by
  by_cases hin : m.hasIndex a = true
  · rw [byteAt_write hin, if_neg hne]
  · rw [Memory.write, if_neg hin]

/-- Two bytes written one after the other, high first. -/
theorem byteAt_write_write_same {m : Memory} {a : Nat} (hin : a + 1 < m.size ∧ a + 1 < 65536) (v w : Byte) :
    ((m.write a v).write (a + 1) w).byteAt a = v ∧ ((m.write a v).write (a + 1) w).byteAt (a + 1) = w := by
  have hin' : a + 1 < (m.write a v).size ∧ a + 1 < 65536 := by rwa [write_size]
  have hhigh : a < m.size ∧ a < 65536 := by omega
  exact ⟨by rw [byteAt_write_ne _ (Nat.ne_of_lt (Nat.lt_succ_self a)), byteAt_write_same hhigh], byteAt_write_same hin' w⟩

/-- Settles O24: the bytes written at the two indices are the ones fetched, and a write at a third index moves neither. -/
theorem fetchGivesTwoBytesHighFirst : Obligations.FetchGivesTwoBytesHighFirst := by
  intro m a hsize hlimit
  refine ⟨fetch_of_mem ⟨hsize, hlimit⟩, fun v w => ?_, fun b v hhigh hlow => ?_⟩
  · obtain ⟨hv, hw⟩ := byteAt_write_write_same ⟨hsize, hlimit⟩ v w
    rw [fetch_of_mem (by simpa only [write_size] using ⟨hsize, hlimit⟩), hv, hw]
  · rw [fetch_eq, fetch_eq, write_size, byteAt_write_ne m hhigh.symm, byteAt_write_ne m hlow.symm]

/-- Settles O27: the write changes the byte at its own index, and no index comes or goes. -/
theorem writtenByteReadsBackOthersStay : Obligations.WrittenByteReadsBackOthersStay := by
  intro m a v hsize hlimit
  refine ⟨?_, fun b hne => ?_⟩
  · rw [read_eq, write_size, if_pos ⟨hsize, hlimit⟩, byteAt_write_same ⟨hsize, hlimit⟩]
  · rw [read_eq, read_eq, write_size, byteAt_write_ne m hne]

/-! ## Decode calls (R31, R33, R38, R43) -/

theorem decodeCall_of_mem {m : Memory} {offset : Word} (hin : offset.toNat + 1 < m.size ∧ offset.toNat + 1 < 65536) :
    decodeCall m offset = .ok (decode (m.byteAt offset.toNat) (m.byteAt (offset.toNat + 1)),
      renderLine Config.hardware offset (m.byteAt offset.toNat) (m.byteAt (offset.toNat + 1))
        (decode (m.byteAt offset.toNat) (m.byteAt (offset.toNat + 1)))) := by
  rw [decodeCall_eq, if_pos hin]

theorem decodeCall_of_not_mem {m : Memory} {offset : Word}
    (hout : ¬ (offset.toNat + 1 < m.size ∧ offset.toNat + 1 < 65536)) : decodeCall m offset = .error .outOfBuffer := by
  rw [decodeCall_eq, if_neg hout]

/-- A call decodes the two bytes at its offset, whatever names them. -/
theorem decodeCall_of_bytes {m : Memory} {offset : Word} {high low : Byte}
    (hin : offset.toNat + 1 < m.size ∧ offset.toNat + 1 < 65536) (hhigh : m.byteAt offset.toNat = high)
    (hlow : m.byteAt (offset.toNat + 1) = low) : ∃ line, decodeCall m offset = .ok (decode high low, line) := by
  subst hhigh hlow
  exact ⟨_, decodeCall_of_mem hin⟩

/-- Settles O26: the even and the odd offset are one case; the invariant's offset is `BASE` plus twice a count. -/
theorem anyOffsetInBufferIsDecoded : Obligations.AnyOffsetInBufferIsDecoded := by
  refine ⟨fun m offset hsize hlimit => ?_, fun m hsize hhigh hlow => ?_, fun s hinv => ?_⟩
  · rw [decodeCall_of_mem ⟨hsize, hlimit⟩, renderLine, linePrefix_eq_prefixText]
  · have hunknown : decode 0xE0 0x12 = .unknown := by decide
    rw [← hunknown]
    exact decodeCall_of_bytes ⟨Nat.lt_of_lt_of_le (by decide) hsize, by decide⟩ hhigh hlow
  · obtain ⟨-, hoffset, -, -⟩ := hinv
    rw [hoffset, base_eq]
    omega

/-- Settles O29: both calls are inside their buffers or, at 0xFFFF, neither is; inside, the bytes are the same. -/
theorem callDependsOnlyOnItsTwoBytes : Obligations.CallDependsOnlyOnItsTwoBytes := by
  intro m m' offset hsize hsize' hhigh hlow
  by_cases hlimit : offset.toNat + 1 < 65536
  · rw [decodeCall_of_mem ⟨hsize, hlimit⟩, decodeCall_of_mem ⟨hsize', hlimit⟩, hhigh, hlow]
  · rw [decodeCall_of_not_mem fun hin => hlimit hin.2, decodeCall_of_not_mem fun hin => hlimit hin.2]

/-- Settles O28: no meaning touches the buffer, and the call after a write decodes the byte that the write left. -/
theorem bufferChangeIsSeenByNextCall : Obligations.BufferChangeIsSeenByNextCall := by
  refine ⟨fun i s t h => ?_, fun s offset v hsize hlimit => ?_⟩
  · obtain ⟨-, rfl⟩ := exec_next h
    rfl
  · have hin (a : Nat) : offset.toNat + 1 < (s.pokeByte a v).mem.size ∧ offset.toNat + 1 < 65536 := by
      rw [State.pokeByte_mem, write_size]
      exact ⟨hsize, hlimit⟩
    exact ⟨decodeCall_of_bytes (hin _) (byteAt_write_same ⟨by omega, by omega⟩ v) (byteAt_write_ne _ (by omega) v),
      decodeCall_of_bytes (hin _) (byteAt_write_ne _ (by omega) v) (byteAt_write_same ⟨hsize, hlimit⟩ v)⟩

/-! ## Meanings (R31, R64, R71, R141) -/

theorem exec_of_callOk {s : State} (i : Instr) (hcall : s.CallOk) :
    exec i s = .next (after s (renderText Config.hardware i)) := by
  have hport : s.offset < 65536 := Nat.lt_of_succ_lt hcall.2
  rw [exec_eq_emitText, emitText_eq, if_pos hcall, lineOf_eq_lineFor _ hport]
  rfl

theorem exec_of_not_callOk {s : State} (i : Instr) (hcall : ¬ s.CallOk) : exec i s = .refused .outOfBuffer := by
  rw [exec_eq_emitText, emitText_eq, if_neg hcall]

/-- Settles O35: every meaning is one emission, which answers on either side of the call's precondition. -/
theorem everyFormCompletesInsideBuffer : Obligations.EveryFormCompletesInsideBuffer :=
  fun i _ => ⟨exec_of_callOk i, exec_of_not_callOk i⟩

/-- Settles O25: outside the buffer, or at 0xFFFF whose next index has no 16 bits, the precondition of the call fails. -/
theorem callOutsideBufferIsRefused : Obligations.CallOutsideBufferIsRefused := by
  refine ⟨fun m offset hout => ?_, fun m => ?_, fun i s hout => ?_⟩
  · exact decodeCall_of_not_mem fun hin => hout hin.1
  · exact decodeCall_of_not_mem fun hin => absurd hin.2 (by decide)
  · exact exec_of_not_callOk i fun hcall => hout hcall.1

/-! ## The step (R40, R42, R160) -/

/-- Settles O31: the loop condition and the call's precondition select the meaning of the decoded word. -/
theorem stepRunsDecodedInstruction : Obligations.StepRunsDecodedInstruction := by
  intro s henabled hsize hlimit
  have hcall : s.CallOk := ⟨hsize, hlimit⟩
  rw [step_eq, if_pos henabled, if_pos hcall]
  rfl

/-- A step at which the loop is enabled runs the two bytes of its word, whatever names them. -/
theorem step_of_bytes {s : State} {high low : Byte} (henabled : s.offset + 1 < 0x200 + s.len)
    (hsize : s.offset + 1 < s.mem.size) (hlimit : s.offset + 1 < 65536) (hhigh : highAt s = high) (hlow : lowAt s = low) :
    step s = exec (decode high low) s := by
  rw [stepRunsDecodedInstruction s henabled hsize hlimit, hhigh, hlow]

section
variable {s t : State} {a : Nat} (v : Byte) (hhigh : s.offset ≠ a) (hlow : s.offset + 1 ≠ a)
include hhigh hlow

/-- A meaning that completes does the same, byte for byte, in a buffer that differs off its word. -/
theorem exec_pokeByte {i : Instr} (h : exec i s = .next t) : exec i (s.pokeByte a v) = .next (t.pokeByte a v) := by
  obtain ⟨hcall, rfl⟩ := exec_next h
  have hcall' : (s.pokeByte a v).CallOk := by simpa [State.CallOk] using hcall
  have hline (text : Text) : lineOf text (s.pokeByte a v) = lineOf text s :=
    lineOf_congr text rfl (byteAt_write_ne _ hhigh v) (byteAt_write_ne _ hlow v)
  rw [exec_eq_emitText, emitText_eq, if_pos hcall', hline]
  rfl

/-- A step that answers is the same step in a buffer that differs off its word. -/
theorem step_pokeByte (h : step s = .next t) : step (s.pokeByte a v) = .next (t.pokeByte a v) := by
  obtain ⟨henabled, ⟨hsize, hlimit⟩, -⟩ := step_next h
  have hsize' : s.offset + 1 < (s.pokeByte a v).mem.size := by rwa [State.pokeByte_mem, write_size]
  rw [stepRunsDecodedInstruction s henabled hsize hlimit] at h
  have hstep := step_of_bytes (s := s.pokeByte a v) henabled hsize' hlimit (byteAt_write_ne _ hhigh v)
    (byteAt_write_ne _ hlow v)
  exact hstep.trans (exec_pokeByte v hhigh hlow h)

end

/-- Settles O54: the offset is even from `BASE`, so where `LEN` is odd a complete word ends before the last byte. -/
theorem oddLastByteIsNeverRead : Obligations.OddLastByteIsNeverRead := by
  rintro s t v ⟨-, hoffset, -, -⟩ hodd hstep
  obtain ⟨henabled, -⟩ := step_next_fields hstep
  rw [base_eq] at hoffset
  have hbelow : s.offset + 1 < 0x200 + s.len - 1 := by omega
  exact ⟨hbelow, _, step_pokeByte v (by omega) (by omega) hstep, rfl, rfl⟩

/-! ## The load (R36, R37, R41, R159) -/

/-- Everything but the bytes that a load leaves. -/
theorem load_fields {s t : State} {image : List Byte} (hload : s.load image = some t) :
    0x200 + image.length ≤ 65536 ∧ t.offset = 0x200 ∧ t.mem.size = 0x200 + image.length ∧ t.len = image.length ∧
      t.lines = [] := by
  obtain ⟨hfits, rfl⟩ := (load_eq_some_iff s t image).1 hload
  exact ⟨hfits, rfl, rfl, rfl, rfl⟩

theorem load_eq_none_iff (s : State) (image : List Byte) : s.load image = none ↔ 65536 < 0x200 + image.length := by
  simp only [State.load, ite_eq_right_iff, reduceCtorEq, imp_false, Nat.not_le]

theorem byteAt_load_image {s t : State} {image : List Byte} {k : Nat} {b : Byte} (hload : s.load image = some t)
    (hk : image[k]? = some b) : t.mem.byteAt (0x200 + k) = b := by
  obtain ⟨-, rfl⟩ := (load_eq_some_iff s t image).1 hload
  rw [Memory.byteAt, cellAt_append, cellAt_filter, if_neg (by omega), cellAt_imageCells, hk]
  rfl

theorem byteAt_load_below {s t : State} {image : List Byte} {a : Nat} (hload : s.load image = some t) (ha : a < 0x200) :
    t.mem.byteAt a = s.mem.byteAt a := by
  obtain ⟨-, rfl⟩ := (load_eq_some_iff s t image).1 hload
  rw [Memory.byteAt, cellAt_append, cellAt_filter, if_pos ha, cellAt_imageCells_below ha, Option.or_none, Memory.byteAt]

/-- After a load the driver stands at `BASE` with no line taken, the listing of no word. -/
theorem load_driverInv {s t : State} {image : List Byte} (hwf : s.mem.wf) (hload : s.load image = some t) :
    t.DriverInv := by
  have htwf := load_wf hwf hload
  obtain ⟨-, rfl⟩ := (load_eq_some_iff s t image).1 hload
  exact ⟨⟨htwf, Nat.le_refl _⟩, rfl, Nat.zero_le _, rfl⟩

/-- Settles O51: the fields are the load's own, and its list of cells is the old one below `BASE` and the image above. -/
theorem loadPlacesImageAndMeetsInvariant : Obligations.LoadPlacesImageAndMeetsInvariant := by
  refine ⟨load_eq_none_iff, fun s t image hwf hload => ?_⟩
  obtain ⟨hfits, hoffset, hsize, hlen, hlines⟩ := load_fields hload
  refine ⟨load_driverInv hwf hload, hoffset, hlen, hlines, fun k b hk => ?_, fun a ha => byteAt_load_below hload ha⟩
  obtain ⟨hlt, -⟩ := List.getElem?_eq_some_iff.1 hk
  have hin : 0x200 + k < t.mem.size ∧ 0x200 + k < 65536 := by omega
  rw [read_eq, if_pos hin, byteAt_load_image hload hk]

/-- Settles O53: with `LEN <= 1` the loop condition `BASE + 1 < BASE + LEN` is false. -/
theorem emptyProgramGivesNoLine : Obligations.EmptyProgramGivesNoLine := by
  intro s t image hshort hload
  obtain ⟨-, hoffset, -, hlen, hlines⟩ := load_fields hload
  have hended : ¬ t.offset + 1 < 0x200 + t.len := by omega
  exact ⟨hlines, by rw [step_eq, if_neg hended]⟩

/-! ## A word placed at the driver's offset (R32; log 6) -/

/-- `withFetchWord` where the word has room: the two bytes are written into the grown buffer. -/
theorem withFetchWord_of_room {s : State} (w : Word) (hroom : s.offset + 1 < 65536) :
    s.withFetchWord 16 w.toNat =
      { s with
        mem := ((s.mem.grow (s.offset + 2)).write s.offset (highByte w)).write (s.offset + 1) (lowByte w)
        len := max s.len (s.offset + 2 - 0x200) } := by
  have hword : BitVec.ofNat 16 (w.toNat % 2 ^ 16) = w := by
    rw [Nat.mod_eq_of_lt w.isLt, BitVec.ofNat_toNat, BitVec.setWidth_eq]
  rw [State.withFetchWord, if_pos hroom, hword]

/-- The grown buffer has both indices of the word. -/
theorem grow_size_gt {m : Memory} {a : Nat} (hroom : a + 1 < 65536) : a + 1 < (m.grow (a + 2)).size := by
  have hmin : a + 1 < min (a + 2) 65536 := by omega
  exact Nat.lt_of_lt_of_le hmin (Nat.le_max_right _ _)

/-- Settles O55: the placed word is in the buffer and below `BASE + LEN`, so the step is enabled and decodes it. -/
theorem placedWordRunsAsNextStep : Obligations.PlacedWordRunsAsNextStep := by
  intro s w hroom
  have hsize := grow_size_gt (m := s.mem) hroom
  obtain ⟨hhigh, hlow⟩ := byteAt_write_write_same ⟨hsize, hroom⟩ (highByte w) (lowByte w)
  have henabled : s.offset + 1 < 0x200 + max s.len (s.offset + 2 - 0x200) := by omega
  rw [withFetchWord_of_room w hroom]
  exact ⟨step_of_bytes henabled (by rwa [write_size, write_size]) hroom hhigh hlow, hhigh, hlow⟩

end Sys2Proof.Machine
end

section
/-! PROOFS. The statements of 30_encoding.md: the rows of the decode table, the operands of each class, and the encoder
against the decoder. First the facts they share: the fields of a word given as its class nibble, `n1` and the low byte,
and the variants that the class-0xE words decode to. -/

namespace Sys2Proof.Machine

/-! ## The fields of a word by class nibble, `n1` and low byte (R48 to R51, R66) -/

/-- The register operand of the class-0xE forms (R49). -/
def keyOf (p : Config.Params) (n1 : Nibble) (low : Byte) : Nibble := if p.keyRegSel = .n3 then loNibble low else n1

/-- The fields of the word whose first byte has the nibbles `n0` and `n1`. -/
def fieldsOf (p : Config.Params) (n0 n1 : Nibble) (low : Byte) : Fields where
  n0 := n0
  n1 := n1
  n2 := hiNibble low
  n3 := loNibble low
  low := low
  nnn := n1 ++ low
  key := keyOf p n1 low

theorem decodeWith_append (p : Config.Params) (n0 n1 : Nibble) (low : Byte) :
    decodeWith p (n0 ++ n1) low = dispatch (fieldsOf p n0 n1 low) := by
  have h := fields_append p n0 n1 (hiNibble low) (loNibble low)
  rw [nibbles_append] at h
  exact congrArg dispatch h

theorem decodeWith_eq_dispatch (p : Config.Params) (high low : Byte) :
    decodeWith p high low = dispatch (fieldsOf p (hiNibble high) (loNibble high) low) := by
  rw [← decodeWith_append, nibbles_append]

theorem keyOf_of_n3 {p : Config.Params} (h : p.keyRegSel = .n3) (n1 : Nibble) (low : Byte) :
    keyOf p n1 low = loNibble low := if_pos h

theorem keyOf_of_n1 {p : Config.Params} (h : p.keyRegSel = .n1) (n1 : Nibble) (low : Byte) :
    keyOf p n1 low = n1 := if_neg (by simp [h])

theorem keyOf_eq_loNibble_or (p : Config.Params) (n1 : Nibble) (low : Byte) :
    p.keyRegSel = .n1 ∨ keyOf p n1 low = loNibble low := by
  cases hsel : p.keyRegSel with
  | n3 => exact .inr (keyOf_of_n3 hsel n1 low)
  | n1 => exact .inl rfl

theorem decodeWith_skp (p : Config.Params) (n1 : Nibble) :
    decodeWith p (0xE#4 ++ n1) 0x9E#8 = .skp (keyOf p n1 0x9E#8) := decodeWith_append p _ n1 _

theorem decodeWith_sknp (p : Config.Params) (n1 : Nibble) :
    decodeWith p (0xE#4 ++ n1) 0xA1#8 = .sknp (keyOf p n1 0xA1#8) := decodeWith_append p _ n1 _

/-! ## The operands of each class (R49, R51, R53, R100) -/

theorem addr_eq_ofNat (n1 : Nibble) (low : Byte) :
    (n1 ++ low : Addr) = BitVec.ofNat 12 (n1.toNat * 256 + low.toNat) := by
  apply BitVec.eq_of_toNat_eq
  rw [BitVec.toNat_append, ← Nat.shiftLeft_add_eq_or_of_lt low.isLt, Nat.shiftLeft_eq, BitVec.toNat_ofNat]
  omega

/-- Settles O10: the address is `n1` and the low byte side by side, `n1` times 256 plus the byte. -/
theorem addressTakesLowNibbleOfFirstByte : Obligations.AddressTakesLowNibbleOfFirstByte := by
  refine ⟨fun n1 low => ?_, by decide, by decide⟩
  rw [← addr_eq_ofNat]
  exact ⟨decodeWith_append _ _ n1 low, decodeWith_append _ _ n1 low, decodeWith_append _ _ n1 low,
    decodeWith_append _ _ n1 low⟩

/-- Settles O9: class 0x0 and, with `key = n3`, class 0xE take nothing from `n1`; classes 0x5, 0x9 and the shifts' texts take
nothing from the last nibble and from `y`. -/
theorem ignoredNibblesChangeNothing : Obligations.IgnoredNibblesChangeNothing := by
  refine ⟨fun n1 => ?_, fun n1 n1' low => ?_, fun n1 n1' low => ?_, fun x y n3 => ?_, fun x y => ?_, fun p x y y' => ?_⟩
  · exact ⟨decodeWith_append _ _ n1 _, decodeWith_append _ _ n1 _⟩
  · exact (decodeWith_append _ _ n1 low).trans (decodeWith_append Config.hardware 0x0 n1' low).symm
  · exact (decodeWith_append _ _ n1 low).trans (decodeWith_append Config.hardware 0xE n1' low).symm
  · simp only [decode, decodeWith, fields_append]
    exact ⟨rfl, rfl⟩
  · simp only [decode, decodeWith, fields_append]
    exact ⟨rfl, rfl⟩
  · exact ⟨rfl, rfl⟩

theorem decodeClassE_congr_key {f : Fields} (hlow : ¬ (f.low = 0x9E ∨ f.low = 0xA1)) (key : Nibble) :
    decodeClassE { f with key := key } = decodeClassE f := by
  simp only [decodeClassE]
  split
  case h_1 h => exact absurd (.inl (BitVec.eq_of_toNat_eq h)) hlow
  case h_2 h => exact absurd (.inr (BitVec.eq_of_toNat_eq h)) hlow
  case h_3 => rfl

/-- Only the two forms of class 0xE read the key nibble. -/
theorem dispatch_congr_key {f : Fields} (hword : ¬ (f.n0 = 0xE ∧ (f.low = 0x9E ∨ f.low = 0xA1))) (key : Nibble) :
    dispatch { f with key := key } = dispatch f := by
  simp only [dispatch]
  split
  case h_15 h => exact decodeClassE_congr_key (fun hlow => hword ⟨BitVec.eq_of_toNat_eq h, hlow⟩) key
  all_goals rfl

/-- Settles O11: the parameters reach the decode through the key nibble alone, which only `SKP` and `SKNP` read. -/
theorem keyRegisterFollowsSelectorNibble : Obligations.KeyRegisterFollowsSelectorNibble := by
  refine ⟨rfl, fun p n1 hsel => ?_, fun p n1 hsel => ?_, fun p p' high low hword => ?_⟩
  · rw [decodeWith_skp, decodeWith_sknp, keyOf_of_n3 hsel, keyOf_of_n3 hsel]
    exact ⟨rfl, rfl⟩
  · rw [decodeWith_skp, decodeWith_sknp, keyOf_of_n1 hsel, keyOf_of_n1 hsel]
    exact ⟨rfl, rfl⟩
  · exact dispatch_congr_key (f := fields p' high low) hword (fields p high low).key

/-! ## What a word decodes to is well formed (R49, R100) -/

theorem decodeClass0_wellFormed (p : Config.Params) (f : Fields) : (decodeClass0 f).wellFormed p = true := by
  unfold decodeClass0
  split <;> rfl

theorem decodeClass8_wellFormed (p : Config.Params) (f : Fields) : (decodeClass8 f).wellFormed p = true := by
  unfold decodeClass8
  split <;> rfl

/-- The register of `SKP` is free under `n1`; else it is the low nibble of the selector byte. -/
theorem skp_wellFormed_iff (p : Config.Params) (x : Nibble) :
    (Instr.skp x).wellFormed p = true ↔ p.keyRegSel = .n1 ∨ x = loNibble 0x9E#8 := by
  rw [Instr.wellFormed, Bool.or_eq_true, beq_iff_eq, beq_iff_eq]
  rfl

theorem sknp_wellFormed_iff (p : Config.Params) (x : Nibble) :
    (Instr.sknp x).wellFormed p = true ↔ p.keyRegSel = .n1 ∨ x = loNibble 0xA1#8 := by
  rw [Instr.wellFormed, Bool.or_eq_true, beq_iff_eq, beq_iff_eq]
  rfl

theorem decodeClassE_wellFormed (p : Config.Params) (n0 n1 : Nibble) (low : Byte) :
    (decodeClassE (fieldsOf p n0 n1 low)).wellFormed p = true := by
  unfold decodeClassE
  split
  case h_1 h =>
    obtain rfl : low = 0x9E#8 := BitVec.eq_of_toNat_eq h
    exact (skp_wellFormed_iff p _).2 (keyOf_eq_loNibble_or p n1 _)
  case h_2 h =>
    obtain rfl : low = 0xA1#8 := BitVec.eq_of_toNat_eq h
    exact (sknp_wellFormed_iff p _).2 (keyOf_eq_loNibble_or p n1 _)
  case h_3 => rfl

theorem decodeClassF_wellFormed (p : Config.Params) (f : Fields) : (decodeClassF f).wellFormed p = true := by
  unfold decodeClassF
  split <;> rfl

/-- Settles O3: only the forms of class 0xE can be ill formed, and their key nibble is free or the selector's low nibble. -/
theorem decodeGivesWellFormedVariants : Obligations.DecodeGivesWellFormedVariants := by
  intro p high low
  rw [decodeWith_eq_dispatch]
  unfold dispatch
  split
  case h_1 => exact decodeClass0_wellFormed p _
  case h_9 => exact decodeClass8_wellFormed p _
  case h_15 => exact decodeClassE_wellFormed p _ _ low
  case h_16 => exact decodeClassF_wellFormed p _
  all_goals rfl

/-! ## The rows of the decode table (R52, R54, R61) -/

/-- A word that both of two rows select has, in the bits that both test, both patterns. -/
theorem patterns_agree_of_selects {r r' : RomRow} {w : Word} (h : r.selects w = true) (h' : r'.selects w = true) :
    r.pattern &&& r'.mask = r'.pattern &&& r.mask := by
  rw [← eq_of_beq h, ← eq_of_beq h', BitVec.and_assoc, BitVec.and_assoc, BitVec.and_comm r.mask]

/-- Settles O6: in each pair of rows some bit is tested by both and differs in their patterns. -/
theorem romRowsNeverSelectOneWordTwice : Obligations.RomRowsNeverSelectOneWordTwice := by
  have hdiffer : rom.Pairwise fun r r' => r.pattern &&& r'.mask ≠ r'.pattern &&& r.mask := by decide
  exact ⟨rfl, hdiffer.imp fun hne _ ⟨h, h'⟩ => hne (patterns_agree_of_selects h h')⟩

/-- Down the table the ids are 1 to 34, whatever the fields. -/
theorem rom_kinds (f : Fields) : (rom.map fun r => (r.make f).kind.toNat) = List.range' 1 34 := rfl

theorem kind_le (i : Instr) : i.kind.toNat ≤ 34 := by
  cases i <;> exact Nat.le_of_ble_eq_true rfl

/-- Settles O14: the ids of the rows are the numbers from 1 on, so row `k` has `1 + k`. -/
theorem variantIdsFollowTheTable : Obligations.VariantIdsFollowTheTable := by
  refine ⟨rfl, fun k r hrow f => ?_, kind_le⟩
  have hk : k < 34 := (List.getElem?_eq_some_iff.1 hrow).1
  have hid : some (r.make f).kind.toNat = some (1 + 1 * k) := by
    rw [← List.getElem?_range' hk, ← rom_kinds f, List.getElem?_map, hrow, Option.map_some]
  rw [Option.some.inj hid]
  omega

/-! ## Decode of encode, format by format (R47, R52; log 12) -/

theorem decodeWith_bytesOf (p : Config.Params) (n0 n1 n2 n3 : Nibble) :
    decodeWith p (bytesOf n0 n1 n2 n3).1 (bytesOf n0 n1 n2 n3).2 =
      dispatch { fieldsOf p n0 n1 (n2 ++ n3) with n2 := n2, n3 := n3 } := by
  simp only [bytesOf, decodeWith_append, fieldsOf, hiNibble_append, loNibble_append]

theorem decodeWith_bytesOfAddr (p : Config.Params) (n0 : Nibble) (nnn : Addr) :
    decodeWith p (bytesOfAddr n0 nnn).1 (bytesOfAddr n0 nnn).2 =
      dispatch { fieldsOf p n0 (nnn.extractLsb' 8 4) (nnn.extractLsb' 0 8) with nnn := nnn } := by
  simp only [bytesOfAddr, decodeWith_append, fieldsOf, addr_append]

theorem decodeWith_bytesOfReg (p : Config.Params) (n0 x : Nibble) (low : Byte) :
    decodeWith p (bytesOfReg n0 x low).1 (bytesOfReg n0 x low).2 = dispatch (fieldsOf p n0 x low) :=
  decodeWith_append p n0 x low

/-- A register that is well formed is carried by `n1` or by the selector byte. -/
theorem decodeWith_bytesOfKey {p : Config.Params} {x : Nibble} {low : Byte}
    (hreg : p.keyRegSel = .n1 ∨ x = loNibble low) :
    ∃ n1, decodeWith p (bytesOfKey p x low).1 (bytesOfKey p x low).2 =
      dispatch { fieldsOf p 0xE n1 low with key := x } := by
  cases hsel : p.keyRegSel with
  | n3 =>
    obtain rfl : x = loNibble low := hreg.resolve_left (by simp [hsel])
    refine ⟨0x0, ?_⟩
    rw [bytesOfKey, hsel, ← keyOf_of_n3 hsel 0x0 low]
    exact decodeWith_append p 0xE 0x0 low
  | n1 =>
    refine ⟨x, ?_⟩
    rw [bytesOfKey, hsel]
    have h := decodeWith_append p 0xE x low
    rwa [fieldsOf, keyOf_of_n1 hsel] at h

/-- Settles O1: in each format of R47 the bytes give back the class, the selector and the operands. -/
theorem decodeOfEncodeIsTheInstruction : Obligations.DecodeOfEncodeIsTheInstruction := by
  intro p i hwf
  cases i with
  | cls | ret | unknown => exact decodeWith_append p 0 0 _
  | jp nnn | call nnn | ldI nnn | jpV0 nnn => exact decodeWith_bytesOfAddr p _ nnn
  | seImm x kk | sneImm x kk | ldImm x kk | addImm x kk | rnd x kk => exact decodeWith_bytesOfReg p _ x kk
  | seReg x y | sneReg x y => exact decodeWith_bytesOf p _ x y _
  | ldReg x y | or x y | and x y | xor x y | addReg x y | sub x y | shr x y | subn x y | shl x y =>
    exact decodeWith_bytesOf p _ x y _
  | drw x y n => exact decodeWith_bytesOf p _ x y n
  | skp x => exact (decodeWith_bytesOfKey ((skp_wellFormed_iff p x).1 hwf)).elim fun _ h => h
  | sknp x => exact (decodeWith_bytesOfKey ((sknp_wellFormed_iff p x).1 hwf)).elim fun _ h => h
  | ldVxDt x | ldVxK x | ldDtVx x | ldStVx x | addIVx x | ldFVx x | ldBVx x | ldMemVx x | ldVxMem x =>
    exact decodeWith_bytesOfReg p _ x _

/-! ## Encode of decode, class by class (R47, R53; log 12) -/

/-- If `i` is a known variant, its encoding is the word `w` with the nibbles that `i` ignores set to 0 (R53; log 12). -/
def KeepsTestedBits (p : Config.Params) (w : Word) (i : Instr) : Prop :=
  i ≠ .unknown → encodeWord p i = w &&& careMask p i

theorem keepsTestedBits_unknown (p : Config.Params) (w : Word) : KeepsTestedBits p w .unknown := fun h => absurd rfl h

/-- A form without ignored nibbles, whose encoding spells the low byte of the word as `low'`. -/
theorem keepsTestedBits_of_bytes {p : Config.Params} {high low low' : Byte} {i : Instr} (hlow : low' = low)
    (hmask : careMask p i = BitVec.allOnes 16) (hbytes : encodeWith p i = (high, low')) :
    KeepsTestedBits p (high ++ low) i := by
  intro _
  rw [encodeWord, hmask, hbytes, BitVec.and_allOnes, hlow]

/-- A word under the mask that ignores `n1`. -/
theorem and_mask_n1 (n0 n1 : Nibble) (low : Byte) :
    ((n0 ++ n1 : Byte) ++ low : Word) &&& 0xF0FF#16 = (n0 ++ 0x0#4 : Byte) ++ low := by
  have h : (0xF0FF#16 : Word) = ((BitVec.allOnes 4 ++ 0x0#4 : Byte) ++ BitVec.allOnes 8 : Word) := rfl
  rw [h, BitVec.and_append, BitVec.and_append, BitVec.and_allOnes, BitVec.and_allOnes, BitVec.and_zero]

/-- A word under the mask that ignores `n3`. -/
theorem and_mask_n3 (high low : Byte) :
    (high ++ low : Word) &&& 0xFFF0#16 = high ++ (hiNibble low ++ 0x0#4 : Byte) := by
  have h : (0xFFF0#16 : Word) = (BitVec.allOnes 8 ++ (BitVec.allOnes 4 ++ 0x0#4 : Byte) : Word) := rfl
  rw [h, BitVec.and_append, ← nibbles_append low, BitVec.and_append, hiNibble_append, BitVec.and_allOnes,
    BitVec.and_allOnes, BitVec.and_zero]

section
variable (p : Config.Params) (n0 n1 : Nibble) (low : Byte)

theorem decodeClass0_keepsTestedBits :
    KeepsTestedBits p ((0x0#4 ++ n1 : Byte) ++ low) (decodeClass0 (fieldsOf p 0x0 n1 low)) := by
  unfold decodeClass0
  split
  case h_1 h =>
    obtain rfl : low = 0xE0#8 := BitVec.eq_of_toNat_eq h
    exact fun _ => (and_mask_n1 0x0 n1 0xE0#8).symm
  case h_2 h =>
    obtain rfl : low = 0xEE#8 := BitVec.eq_of_toNat_eq h
    exact fun _ => (and_mask_n1 0x0 n1 0xEE#8).symm
  case h_3 => exact keepsTestedBits_unknown p _

theorem bytesOfAddr_append : bytesOfAddr n0 (n1 ++ low) = (n0 ++ n1, low) := by
  rw [bytesOfAddr, BitVec.extractLsb'_append_eq_left, BitVec.extractLsb'_append_eq_right]

variable {low} in
theorem hiNibble_append_of_loNibble {sel : Nibble} (hsel : (loNibble low).toNat = sel.toNat) :
    hiNibble low ++ sel = low := by
  rw [← BitVec.eq_of_toNat_eq hsel, nibbles_append]

theorem decodeClass8_keepsTestedBits :
    KeepsTestedBits p ((0x8#4 ++ n1 : Byte) ++ low) (decodeClass8 (fieldsOf p 0x8 n1 low)) := by
  unfold decodeClass8
  split
  case h_10 => exact keepsTestedBits_unknown p _
  all_goals
    rename_i h
    refine keepsTestedBits_of_bytes (hiNibble_append_of_loNibble ?sel) rfl rfl
    case sel => exact h

theorem decodeClassF_keepsTestedBits :
    KeepsTestedBits p ((0xF#4 ++ n1 : Byte) ++ low) (decodeClassF (fieldsOf p 0xF n1 low)) := by
  unfold decodeClassF
  split
  case h_10 => exact keepsTestedBits_unknown p _
  all_goals
    rename_i h
    refine keepsTestedBits_of_bytes (BitVec.eq_of_toNat_eq ?sel) rfl rfl
    case sel => exact h.symm

/-- The key nibble is put back into the word that it was taken from. -/
theorem bytesOfKey_keyOf :
    ((bytesOfKey p (keyOf p n1 low) low).1 ++ (bytesOfKey p (keyOf p n1 low) low).2 : Word) =
      ((0xE#4 ++ n1 : Byte) ++ low) &&& (if p.keyRegSel = .n3 then 0xF0FF else 0xFFFF) := by
  cases hsel : p.keyRegSel with
  | n3 =>
    rw [bytesOfKey, hsel, if_pos rfl]
    exact (and_mask_n1 0xE n1 low).symm
  | n1 =>
    rw [bytesOfKey, hsel, keyOf_of_n1 hsel]
    exact BitVec.and_allOnes.symm

theorem decodeClassE_keepsTestedBits :
    KeepsTestedBits p ((0xE#4 ++ n1 : Byte) ++ low) (decodeClassE (fieldsOf p 0xE n1 low)) := by
  unfold decodeClassE
  split
  case h_1 h =>
    obtain rfl : low = 0x9E#8 := BitVec.eq_of_toNat_eq h
    exact fun _ => bytesOfKey_keyOf p n1 0x9E#8
  case h_2 h =>
    obtain rfl : low = 0xA1#8 := BitVec.eq_of_toNat_eq h
    exact fun _ => bytesOfKey_keyOf p n1 0xA1#8
  case h_3 => exact keepsTestedBits_unknown p _

theorem dispatch_keepsTestedBits : KeepsTestedBits p ((n0 ++ n1 : Byte) ++ low) (dispatch (fieldsOf p n0 n1 low)) := by
  match n0 with
  | ⟨0x0⟩ => exact decodeClass0_keepsTestedBits p n1 low
  | ⟨0x1⟩ | ⟨0x2⟩ | ⟨0xA⟩ | ⟨0xB⟩ => exact keepsTestedBits_of_bytes rfl rfl (bytesOfAddr_append _ n1 low)
  | ⟨0x3⟩ | ⟨0x4⟩ | ⟨0x6⟩ | ⟨0x7⟩ | ⟨0xC⟩ => exact keepsTestedBits_of_bytes rfl rfl rfl
  | ⟨0x5⟩ | ⟨0x9⟩ => exact fun _ => (and_mask_n3 _ low).symm
  | ⟨0x8⟩ => exact decodeClass8_keepsTestedBits p n1 low
  | ⟨0xD⟩ => exact keepsTestedBits_of_bytes (nibbles_append low) rfl rfl
  | ⟨0xE⟩ => exact decodeClassE_keepsTestedBits p n1 low
  | ⟨0xF⟩ => exact decodeClassF_keepsTestedBits p n1 low
  | ⟨⟨k + 16, hk⟩⟩ => exact absurd hk (by omega)

end

/-- Settles O2: class by class, the encoder puts back what the dispatch has taken from the word. -/
theorem decodedWordKeepsEveryTestedBit : Obligations.DecodedWordKeepsEveryTestedBit := by
  intro p high low
  have h := dispatch_keepsTestedBits p (hiNibble high) (loNibble high) low
  rwa [← decodeWith_append, nibbles_append] at h

end Sys2Proof.Machine
end

section
/-! PROOFS. The statements of 40_dispatch.md: the dispatch as the if-chains of R66's pseudocode, and the table of 34 rows
against it. A word is selected by rows of its own class only, and the rows of one class differ in their selectors only. -/

namespace Sys2Proof.Machine

/-! ## The classes that have a selector, in the order of R66

A selector equals a literal where their numbers are equal, and the numbers are what the dispatch matches on. -/

theorem decodeClass0_eq_ite (f : Fields) :
    decodeClass0 f = if f.low = 0xE0 then .cls else if f.low = 0xEE then .ret else .unknown := by
  simp only [decodeClass0, ← BitVec.toNat_inj]
  split <;> simp_all

theorem decodeClass8_eq_ite (f : Fields) :
    decodeClass8 f =
      if f.n3 = 0x0 then .ldReg f.n1 f.n2 else if f.n3 = 0x1 then .or f.n1 f.n2 else if f.n3 = 0x2 then .and f.n1 f.n2
      else if f.n3 = 0x3 then .xor f.n1 f.n2 else if f.n3 = 0x4 then .addReg f.n1 f.n2
      else if f.n3 = 0x5 then .sub f.n1 f.n2 else if f.n3 = 0x6 then .shr f.n1 f.n2
      else if f.n3 = 0x7 then .subn f.n1 f.n2 else if f.n3 = 0xE then .shl f.n1 f.n2 else .unknown := by
  simp only [decodeClass8, ← BitVec.toNat_inj]
  split <;> simp_all

theorem decodeClassE_eq_ite (f : Fields) :
    decodeClassE f = if f.low = 0x9E then .skp f.key else if f.low = 0xA1 then .sknp f.key else .unknown := by
  simp only [decodeClassE, ← BitVec.toNat_inj]
  split <;> simp_all

theorem decodeClassF_eq_ite (f : Fields) :
    decodeClassF f =
      if f.low = 0x07 then .ldVxDt f.n1 else if f.low = 0x0A then .ldVxK f.n1 else if f.low = 0x15 then .ldDtVx f.n1
      else if f.low = 0x18 then .ldStVx f.n1 else if f.low = 0x1E then .addIVx f.n1 else if f.low = 0x29 then .ldFVx f.n1
      else if f.low = 0x33 then .ldBVx f.n1 else if f.low = 0x55 then .ldMemVx f.n1
      else if f.low = 0x65 then .ldVxMem f.n1 else .unknown := by
  simp only [decodeClassF, ← BitVec.toNat_inj]
  split <;> simp_all

/-- Settles O4: the classes with a selector follow their if-chains; each other class is one variant of the word's fields. -/
theorem dispatchFollowsClassAndSelector : Obligations.DispatchFollowsClassAndSelector := by
  intro p n1 n2 n3
  simp only [decodeWith_append, fieldsOf, keyOf, hiNibble_append, loNibble_append]
  exact ⟨decodeClass0_eq_ite _, rfl, rfl, rfl, rfl, rfl, rfl, rfl, decodeClass8_eq_ite _, rfl, rfl, rfl, rfl, rfl,
    decodeClassE_eq_ite _, decodeClassF_eq_ite _⟩

/-! ## The first row that selects a word (R67) -/

/-- What the first of `rows` that selects `w` makes of the fields `f`; UNKNOWN where none does. -/
def selectFrom (rows : List RomRow) (f : Fields) (w : Word) : Instr :=
  match rows.find? (·.selects w) with
  | some r => r.make f
  | none => .unknown

theorem fields_eq_fieldsOf (p : Config.Params) (n0 n1 : Nibble) (low : Byte) :
    fields p (n0 ++ n1) low = fieldsOf p n0 n1 low := by
  have h := fields_append p n0 n1 (hiNibble low) (loNibble low)
  rwa [nibbles_append] at h

theorem decodeRom_append (p : Config.Params) (n0 n1 : Nibble) (low : Byte) :
    decodeRom p ((n0 ++ n1 : Byte) ++ low) =
      selectFrom rom (fieldsOf p n0 n1 low) ((n0 ++ n1 : Byte) ++ low) := by
  have hdef (w : Word) : decodeRom p w = selectFrom rom (fields p (highByte w) (lowByte w)) w := rfl
  rw [hdef, highByte_append, lowByte_append, fields_eq_fieldsOf]

theorem selectFrom_nil (f : Fields) (w : Word) : selectFrom [] f w = .unknown := rfl

theorem selectFrom_cons (r : RomRow) (rows : List RomRow) (f : Fields) (w : Word) :
    selectFrom (r :: rows) f w = if r.selects w then r.make f else selectFrom rows f w := by
  unfold selectFrom
  rw [List.find?_cons]
  cases r.selects w <;> rfl

theorem selects_iff (mask pattern w : Word) (make : Fields → Instr) :
    (RomRow.mk mask pattern make).selects w = true ↔ w &&& mask = pattern := beq_iff_eq

/-! ## The rows of one class (R52) -/

/-- The rows of the class `c`. -/
def rowsOfClass (c : Nibble) : List RomRow := rom.filter fun r => r.pattern &&& 0xF000 == (c ++ 0x0#4 : Byte) ++ 0x00#8

/-- A word under the mask that tests the class nibble only. -/
theorem and_mask_class (n0 n1 : Nibble) (low : Byte) :
    ((n0 ++ n1 : Byte) ++ low : Word) &&& 0xF000#16 = (n0 ++ 0x0#4 : Byte) ++ 0x00#8 := by
  have h : (0xF000#16 : Word) = ((BitVec.allOnes 4 ++ 0x0#4 : Byte) ++ 0x00#8 : Word) := rfl
  rw [h, BitVec.and_append, BitVec.and_append, BitVec.and_allOnes, BitVec.and_zero, BitVec.and_zero]

/-- A word under the mask that tests the class nibble and `n3`. -/
theorem and_mask_class_n3 (n0 n1 : Nibble) (low : Byte) :
    ((n0 ++ n1 : Byte) ++ low : Word) &&& 0xF00F#16 = (n0 ++ 0x0#4 : Byte) ++ (0x0#4 ++ loNibble low : Byte) := by
  have h : (0xF00F#16 : Word) = ((BitVec.allOnes 4 ++ 0x0#4 : Byte) ++ (0x0#4 ++ BitVec.allOnes 4 : Byte) : Word) := rfl
  rw [h, BitVec.and_append, BitVec.and_append, ← nibbles_append low, BitVec.and_append, loNibble_append,
    BitVec.and_allOnes, BitVec.and_allOnes, BitVec.and_zero, BitVec.and_zero]

/-- Every row tests the whole class nibble, so a word is selected by rows of its own class only. -/
theorem class_eq_of_selects {r : RomRow} (hr : r ∈ rom) {n0 n1 : Nibble} {low : Byte}
    (h : r.selects ((n0 ++ n1 : Byte) ++ low) = true) :
    r.pattern &&& 0xF000 = (n0 ++ 0x0#4 : Byte) ++ 0x00#8 := by
  have htests : ∀ r ∈ rom, r.mask &&& 0xF000 = 0xF000 := by decide
  rw [← (selects_iff _ _ _ r.make).1 h, BitVec.and_assoc, htests r hr]
  exact and_mask_class n0 n1 low

theorem selectFrom_rowsOfClass (f : Fields) (n0 n1 : Nibble) (low : Byte) :
    selectFrom (rowsOfClass n0) f ((n0 ++ n1 : Byte) ++ low) = selectFrom rom f ((n0 ++ n1 : Byte) ++ low) := by
  unfold selectFrom rowsOfClass
  rw [List.find?_filter, List.find?_congr]
  intro r hr
  rw [Bool.eq_iff_iff, decide_eq_true_iff, beq_iff_eq]
  exact and_iff_right_of_imp (class_eq_of_selects hr)

/-! ## A word of a class against a row of that class -/

section
variable {c n1 : Nibble} {low : Byte} {pattern : Word} {make : Fields → Instr}

theorem selects_of_class (hpattern : pattern = (c ++ 0x0#4 : Byte) ++ 0x00#8) :
    (RomRow.mk 0xF000#16 pattern make).selects ((c ++ n1 : Byte) ++ low) = true := by
  rw [selects_iff, and_mask_class, hpattern]

theorem selects_iff_low (hpattern : pattern = (c ++ 0x0#4 : Byte) ++ lowByte pattern) :
    (RomRow.mk 0xF0FF#16 pattern make).selects ((c ++ n1 : Byte) ++ low) = true ↔ low = lowByte pattern := by
  rw [selects_iff, and_mask_n1]
  constructor
  · rintro rfl
    rw [lowByte_append]
  · rintro rfl
    exact hpattern.symm

theorem selects_iff_n3 (hpattern : pattern = (c ++ 0x0#4 : Byte) ++ (0x0#4 ++ loNibble (lowByte pattern) : Byte)) :
    (RomRow.mk 0xF00F#16 pattern make).selects ((c ++ n1 : Byte) ++ low) = true ↔
      loNibble low = loNibble (lowByte pattern) := by
  rw [selects_iff, and_mask_class_n3]
  constructor
  · rintro rfl
    rw [lowByte_append, loNibble_append]
  · intro h
    rw [h]
    exact hpattern.symm

end

/-- A class with one row, which tests no selector. -/
theorem selectFrom_single {c : Nibble} {pattern : Word} (hpattern : pattern = (c ++ 0x0#4 : Byte) ++ 0x00#8)
    (make : Fields → Instr) (f : Fields) (n1 : Nibble) (low : Byte) :
    selectFrom [⟨0xF000#16, pattern, make⟩] f ((c ++ n1 : Byte) ++ low) = make f := by
  rw [selectFrom_cons, if_pos (selects_of_class hpattern)]

section
variable (f : Fields) (n1 : Nibble)

theorem selectFrom_class0 : selectFrom (rowsOfClass 0x0) f ((0x0#4 ++ n1 : Byte) ++ f.low) = decodeClass0 f := by
  rw [decodeClass0_eq_ite]
  show selectFrom [_, _] _ _ = _
  simp (disch := decide) only [selectFrom_cons, selectFrom_nil, selects_iff_low]
  rfl

theorem selectFrom_class8 (hn3 : f.n3 = loNibble f.low) :
    selectFrom (rowsOfClass 0x8) f ((0x8#4 ++ n1 : Byte) ++ f.low) = decodeClass8 f := by
  rw [decodeClass8_eq_ite, hn3]
  show selectFrom romRows8 _ _ = _
  simp (disch := decide) only [romRows8, selectFrom_cons, selectFrom_nil, selects_iff_n3]
  rfl

theorem selectFrom_classE : selectFrom (rowsOfClass 0xE) f ((0xE#4 ++ n1 : Byte) ++ f.low) = decodeClassE f := by
  rw [decodeClassE_eq_ite]
  show selectFrom [_, _] _ _ = _
  simp (disch := decide) only [selectFrom_cons, selectFrom_nil, selects_iff_low]
  rfl

theorem selectFrom_classF : selectFrom (rowsOfClass 0xF) f ((0xF#4 ++ n1 : Byte) ++ f.low) = decodeClassF f := by
  rw [decodeClassF_eq_ite]
  show selectFrom romRowsF _ _ = _
  simp (disch := decide) only [romRowsF, selectFrom_cons, selectFrom_nil, selects_iff_low]
  rfl

end

/-- Class by class, the rows choose as the dispatch does. -/
theorem selectFrom_rowsOfClass_eq_dispatch (p : Config.Params) (n0 n1 : Nibble) (low : Byte) :
    selectFrom (rowsOfClass n0) (fieldsOf p n0 n1 low) ((n0 ++ n1 : Byte) ++ low) = dispatch (fieldsOf p n0 n1 low) := by
  match n0 with
  | ⟨0x0⟩ => exact selectFrom_class0 _ n1
  | ⟨0x8⟩ => exact selectFrom_class8 _ n1 rfl
  | ⟨0xE⟩ => exact selectFrom_classE _ n1
  | ⟨0xF⟩ => exact selectFrom_classF _ n1
  | ⟨0x1⟩ | ⟨0x2⟩ | ⟨0x3⟩ | ⟨0x4⟩ | ⟨0x5⟩ | ⟨0x6⟩ | ⟨0x7⟩ | ⟨0x9⟩ | ⟨0xA⟩ | ⟨0xB⟩ | ⟨0xC⟩ | ⟨0xD⟩ =>
    exact selectFrom_single rfl _ _ n1 low
  | ⟨⟨k + 16, hk⟩⟩ => exact absurd hk (by omega)

/-- Settles O5: only rows of the word's class can select it, and those choose as the dispatch does. -/
theorem romFormEqualsDispatch : Obligations.RomFormEqualsDispatch := by
  intro p high low
  rw [← nibbles_append high, decodeRom_append, decodeWith_append, ← selectFrom_rowsOfClass]
  exact selectFrom_rowsOfClass_eq_dispatch p _ _ low

end Sys2Proof.Machine
end

section
/-! PROOFS. The statements of 41_class_0.md: which words are `CLS`, and the texts of `CLS` and `RET`. -/

namespace Sys2Proof.Machine

theorem bytes_eq_of_append_eq {a b a' b' : Byte} (h : (a ++ b : Word) = a' ++ b') : a = a' ∧ b = b' := by
  have hhigh := congrArg highByte h
  have hlow := congrArg lowByte h
  rw [highByte_append, highByte_append] at hhigh
  rw [lowByte_append, lowByte_append] at hlow
  exact ⟨hhigh, hlow⟩

/-- A word that decodes to `CLS` has the tested bits of the encoding of `CLS`: all but `n1`, which class 0x0 never reads. -/
theorem decode_eq_cls_iff (high low : Byte) : decode high low = .cls ↔ hiNibble high = 0x0 ∧ low = 0xE0 := by
  constructor
  · intro h
    have hknown : decode high low ≠ .unknown := by rw [h]; decide
    have hbits := decodedWordKeepsEveryTestedBit Config.hardware high low hknown
    rw [← decode, h] at hbits
    have hword : (0x00#8 ++ 0xE0#8 : Word) = (hiNibble high ++ 0x0#4 : Byte) ++ low := by
      rw [← and_mask_n1 (hiNibble high) (loNibble high) low, nibbles_append]
      exact hbits
    obtain ⟨hhigh, hlow⟩ := bytes_eq_of_append_eq hword
    have hclass := congrArg hiNibble hhigh
    rw [hiNibble_append] at hclass
    exact ⟨hclass.symm, hlow.symm⟩
  · rintro ⟨hclass, rfl⟩
    rw [decode, decodeWith_eq_dispatch, hclass]
    rfl

/-- Settles O36: the words by their tested bits, the neighbours and the two lines by evaluation, and the completion as of
every form, with the text of `CLS`. -/
theorem clearScreenFormEmitsCls : Obligations.ClearScreenFormEmitsCls :=
  ⟨decode_eq_cls_iff, by decide, by decide, by decide, by decide, fun _ => exec_of_callOk .cls⟩

/-- Settles O37: `RET` completes as every form does, with its own text. -/
theorem returnFormEmitsItsText : Obligations.ReturnFormEmitsItsText :=
  fun _ => exec_of_callOk .ret

end Sys2Proof.Machine
end

section
/-! PROOFS. The statements of 42_class_1_to_7.md: the texts of the address, the register-immediate and the register-pair
forms. First the fact they share: this hardware prints each operand as the statements spell it over natural numbers. -/

namespace Sys2Proof.Machine

open Sys2Proof.Claims

/-! ## The operand texts of this hardware, over natural numbers (R119, R122 to R125, R135; D7) -/

theorem hex1_eq_hexOf (v : Nibble) : hex1 false v = hexOf 1 v.toNat := by
  simp only [hex1, hexDigit_eq_digit, hexOf, Nat.mod_eq_of_lt v.isLt, List.nil_append]

theorem hexMin_eq_hexShort (v : Byte) : hexMin false v = hexShort v.toNat := by
  unfold hexMin hexShort
  split
  case isTrue hlt => rw [hex1_eq_hexOf, toNat_loNibble, Nat.mod_eq_of_lt hlt]
  case isFalse => exact hex2_eq_hexOf v

theorem reg_eq_regText (x : Nibble) : reg Config.hardware x = regText x :=
  congrArg (ascii ['V'] ++ ·) (hex1_eq_hexOf x)

theorem imm_eq_hexShort (kk : Byte) : imm Config.hardware kk = hexShort kk.toNat := hexMin_eq_hexShort kk

theorem cnt_eq_hexOf (n : Nibble) : cnt Config.hardware n = hexOf 1 n.toNat := hex1_eq_hexOf n

/-- Three digits are the digit of the upper four bits and the two digits of the lower byte. -/
theorem hexOf_three (v : Nat) : hexOf 3 v = hexOf 1 (v / 256) ++ hexOf 2 (v % 256) := by
  have hmid : v % 256 / 16 % 16 = v / 16 % 16 := by omega
  have hlast : v % 256 % 16 = v % 16 := by omega
  have hfirst : v / 16 / 16 = v / 256 := by omega
  simp only [hexOf, hmid, hlast, hfirst, List.nil_append, List.cons_append]

theorem addr_eq_addrText (nnn : Addr) : addr Config.hardware nnn = addrText nnn := by
  have htop : (nnn.extractLsb' 8 4).toNat = nnn.toNat / 256 := by
    have hlt : nnn.toNat / 256 < 16 := by omega
    rw [BitVec.extractLsb'_toNat, Nat.shiftRight_eq_div_pow]
    exact Nat.mod_eq_of_lt hlt
  have hlow : (nnn.extractLsb' 0 8).toNat = nnn.toNat % 256 := by
    rw [BitVec.extractLsb'_toNat, Nat.shiftRight_zero]
  rw [addrText, hexOf_three, ← htop, ← hlow, ← hex1_eq_hexOf, ← hex2_eq_hexOf]
  rfl

/-! ## The forms (R76 to R82, R94 to R98; D5) -/

/-- Settles O38: each form completes as every form does; its text ends in the address in three digits. -/
theorem addressFormsEmitTheirTexts : Obligations.AddressFormsEmitTheirTexts := by
  intro s nnn hcall
  rw [← addr_eq_addrText]
  exact ⟨exec_of_callOk (.jp nnn) hcall, exec_of_callOk (.call nnn) hcall, exec_of_callOk (.ldI nnn) hcall,
    exec_of_callOk (.jpV0 nnn) hcall⟩

/-- Settles O39: each form completes as every form does; its text ends in the register and the immediate at its shortest. -/
theorem registerImmediateFormsEmitTheirTexts : Obligations.RegisterImmediateFormsEmitTheirTexts := by
  intro s x kk hcall
  rw [← reg_eq_regText, ← imm_eq_hexShort]
  exact ⟨exec_of_callOk (.seImm x kk) hcall, exec_of_callOk (.sneImm x kk) hcall, exec_of_callOk (.ldImm x kk) hcall,
    exec_of_callOk (.addImm x kk) hcall, exec_of_callOk (.rnd x kk) hcall⟩

/-- Settles O40: each form completes as every form does; its text ends in both registers and, for `DRW`, the count. -/
theorem registerPairFormsEmitTheirTexts : Obligations.RegisterPairFormsEmitTheirTexts := by
  intro s x y n hcall
  rw [← reg_eq_regText, ← reg_eq_regText, ← cnt_eq_hexOf]
  exact ⟨exec_of_callOk (.seReg x y) hcall, exec_of_callOk (.sneReg x y) hcall, exec_of_callOk (.drw x y n) hcall⟩

end Sys2Proof.Machine
end

section
/-! PROOFS. The statements of 43_class_8.md: the texts of the nine class-0x8 forms. -/

namespace Sys2Proof.Machine

open Sys2Proof.Claims

/-! ## The forms (R85 to R93; D5) -/

/-- Settles O41: each form completes as every form does; its text ends in both registers, that of a shift in `x` alone. -/
theorem arithmeticFormsEmitTheirTexts : Obligations.ArithmeticFormsEmitTheirTexts := by
  intro s x y hcall
  rw [← reg_eq_regText x, ← reg_eq_regText y]
  exact ⟨exec_of_callOk (.ldReg x y) hcall, exec_of_callOk (.or x y) hcall, exec_of_callOk (.and x y) hcall,
    exec_of_callOk (.xor x y) hcall, exec_of_callOk (.addReg x y) hcall, exec_of_callOk (.sub x y) hcall,
    exec_of_callOk (.shr x y) hcall, exec_of_callOk (.subn x y) hcall, exec_of_callOk (.shl x y) hcall⟩

end Sys2Proof.Machine
end

section
/-! PROOFS. The statement of 45_class_E.md: the texts of `SKP` and `SKNP`. -/

namespace Sys2Proof.Machine

open Sys2Proof.Claims

/-! ## The forms (R101, R102; D5) -/

/-- Settles O42: each form completes as every form does; its text ends in the register, whichever nibble D4 has chosen. -/
theorem keyFormsEmitTheirTexts : Obligations.KeyFormsEmitTheirTexts := by
  intro s x hcall
  rw [← reg_eq_regText]
  exact ⟨exec_of_callOk (.skp x) hcall, exec_of_callOk (.sknp x) hcall⟩

end Sys2Proof.Machine
end

section
/-! PROOFS. The statement of 46_class_F.md: the texts of the nine class-0xF forms. -/

namespace Sys2Proof.Machine

open Sys2Proof.Claims

/-! ## The forms (R104 to R112; D5, D19) -/

/-- Settles O43: each form completes as every form does; its text holds the register and the form's own fixed operand. -/
theorem classFFormsEmitTheirTexts : Obligations.ClassFFormsEmitTheirTexts := by
  intro s x hcall
  rw [← reg_eq_regText]
  exact ⟨exec_of_callOk (.ldVxDt x) hcall, exec_of_callOk (.ldVxK x) hcall, exec_of_callOk (.ldDtVx x) hcall,
    exec_of_callOk (.ldStVx x) hcall, exec_of_callOk (.addIVx x) hcall, exec_of_callOk (.ldFVx x) hcall,
    exec_of_callOk (.ldBVx x) hcall, exec_of_callOk (.ldMemVx x) hcall, exec_of_callOk (.ldVxMem x) hcall⟩

end Sys2Proof.Machine
end

section
/-! PROOFS. The statements of 47_unknown.md: which words are UNKNOWN and how many, the text of UNKNOWN, and that the driver
goes on after one. -/

namespace Sys2Proof.Machine

open Sys2Proof.Claims

/-! ## The unassigned selectors, class by class (R113 to R116) -/

/-- The class `n0` has selectors, and that of the low byte `low` is not assigned (R114 to R116). -/
abbrev UnassignedSelector (n0 : Nibble) (low : Byte) : Prop :=
  (n0 = 0x0 ∧ low ∉ [0xE0#8, 0xEE#8]) ∨
  (n0 = 0x8 ∧ loNibble low ∈ [0x8#4, 0x9#4, 0xA#4, 0xB#4, 0xC#4, 0xD#4, 0xF#4]) ∨
  (n0 = 0xE ∧ low ∉ [0x9E#8, 0xA1#8]) ∨
  (n0 = 0xF ∧ low ∉ [0x07#8, 0x0A#8, 0x15#8, 0x18#8, 0x1E#8, 0x29#8, 0x33#8, 0x55#8, 0x65#8])

/-- A link of an if-chain that gives a known form lets UNKNOWN through only where its test fails. -/
theorem ite_eq_unknown_iff {c : Prop} [Decidable c] {i j : Instr} (hknown : i ≠ .unknown) :
    (if c then i else j) = .unknown ↔ ¬ c ∧ j = .unknown := by
  split
  case isTrue h => simp [h, hknown]
  case isFalse h => simp [h]

section
variable (f : Fields)

theorem decodeClass0_eq_unknown_iff : decodeClass0 f = .unknown ↔ f.low ∉ [0xE0#8, 0xEE#8] := by
  simp [decodeClass0_eq_ite, ite_eq_unknown_iff]

/-- Nine of the sixteen nibbles are assigned, and UNKNOWN has the other seven. -/
theorem decodeClass8_eq_unknown_iff :
    decodeClass8 f = .unknown ↔ f.n3 ∈ [0x8#4, 0x9#4, 0xA#4, 0xB#4, 0xC#4, 0xD#4, 0xF#4] := by
  have hothers : ∀ n : Nibble, n ∉ [0x0#4, 0x1#4, 0x2#4, 0x3#4, 0x4#4, 0x5#4, 0x6#4, 0x7#4, 0xE#4] ↔
      n ∈ [0x8#4, 0x9#4, 0xA#4, 0xB#4, 0xC#4, 0xD#4, 0xF#4] := by decide
  rw [← hothers]
  simp [decodeClass8_eq_ite, ite_eq_unknown_iff]

theorem decodeClassE_eq_unknown_iff : decodeClassE f = .unknown ↔ f.low ∉ [0x9E#8, 0xA1#8] := by
  simp [decodeClassE_eq_ite, ite_eq_unknown_iff]

theorem decodeClassF_eq_unknown_iff : decodeClassF f = .unknown ↔
    f.low ∉ [0x07#8, 0x0A#8, 0x15#8, 0x18#8, 0x1E#8, 0x29#8, 0x33#8, 0x55#8, 0x65#8] := by
  simp [decodeClassF_eq_ite, ite_eq_unknown_iff]

end

/-- Only the four classes that have a selector reach UNKNOWN. -/
theorem dispatch_eq_unknown_iff (f : Fields) : dispatch f = .unknown ↔
    (f.n0 = 0x0 ∧ decodeClass0 f = .unknown) ∨ (f.n0 = 0x8 ∧ decodeClass8 f = .unknown) ∨
      (f.n0 = 0xE ∧ decodeClassE f = .unknown) ∨ (f.n0 = 0xF ∧ decodeClassF f = .unknown) := by
  obtain ⟨n0, n1, n2, n3, low, nnn, key⟩ := f
  match n0 with
  | ⟨0x0⟩ | ⟨0x8⟩ | ⟨0xE⟩ | ⟨0xF⟩ => simp [dispatch]
  | ⟨0x1⟩ | ⟨0x2⟩ | ⟨0x3⟩ | ⟨0x4⟩ | ⟨0x5⟩ | ⟨0x6⟩ | ⟨0x7⟩ | ⟨0x9⟩ | ⟨0xA⟩ | ⟨0xB⟩ | ⟨0xC⟩ | ⟨0xD⟩ => simp [dispatch]
  | ⟨⟨k + 16, hk⟩⟩ => exact absurd hk (by omega)

/-- Settles O7: the dispatch reaches UNKNOWN in a class with selectors only, at the end of the class's if-chain. -/
theorem unknownExactlyForUnassignedSelectors : Obligations.UnknownExactlyForUnassignedSelectors := by
  intro p high low
  rw [decodeWith_eq_dispatch, dispatch_eq_unknown_iff, decodeClass0_eq_unknown_iff, decodeClass8_eq_unknown_iff,
    decodeClassE_eq_unknown_iff, decodeClassF_eq_unknown_iff]
  rfl

/-! ## The UNKNOWN form and the step at an unknown word (R113, R118; D6) -/

/-- Settles O44: UNKNOWN completes as every form does, with its own text. -/
theorem unknownFormEmitsItsText : Obligations.UnknownFormEmitsItsText :=
  fun _ => exec_of_callOk .unknown

/-- The loop condition keeps the word inside an image that fits. -/
theorem callOk_of_imageFits {s : State} (hfits : s.ImageFits) (henabled : s.offset + 1 < 0x200 + s.len) : s.CallOk := by
  obtain ⟨⟨-, -, hlimit⟩, hsize⟩ := hfits
  rw [base_eq] at hsize
  exact ⟨by omega, by omega⟩

theorem step_of_imageFits {s : State} (hfits : s.ImageFits) (henabled : s.offset + 1 < 0x200 + s.len) :
    step s = .next (after s (renderText Config.hardware (decode (highAt s) (lowAt s)))) := by
  have hcall := callOk_of_imageFits hfits henabled
  rw [stepRunsDecodedInstruction s henabled hcall.1 hcall.2, exec_of_callOk _ hcall]

/-- Settles O45: the step answers as at every word, with the text of UNKNOWN; any other step from that offset that answers
advances by 2 as well. -/
theorem unknownWordDoesNotStopTheRun : Obligations.UnknownWordDoesNotStopTheRun := by
  intro s hfits henabled hunknown
  have hstep := step_of_imageFits hfits henabled
  rw [hunknown] at hstep
  refine ⟨_, renderText Config.hardware .unknown, hstep, by decide, rfl, rfl, fun s' t' hoffset hstep' => ?_⟩
  obtain ⟨-, hadvance, -⟩ := step_next_fields hstep'
  rw [hadvance, hoffset]
  rfl

/-! ## How many words are UNKNOWN (R117) -/

/-- How many low bytes are unassigned selectors of the class `n0`. -/
def unassignedLowBytes (n0 : Nibble) : Nat :=
  (List.range 256).countP fun low => UnassignedSelector n0 (BitVec.ofNat 8 low)

/-- No class reads `n1` as a selector, so each unassigned low byte gives 16 UNKNOWN words of its class. -/
theorem unknownWords_eq (c : Nat) : unknownWords c = 16 * unassignedLowBytes (BitVec.ofNat 4 c) := by
  have hword (n0 n1 : Nibble) (low : Byte) : (decode (n0 ++ n1) low == .unknown) = decide (UnassignedSelector n0 low) := by
    have h := unknownExactlyForUnassignedSelectors Config.hardware (n0 ++ n1) low
    rw [hiNibble_append] at h
    rwa [Bool.eq_iff_iff, beq_iff_eq, decide_eq_true_iff]
  simp only [unknownWords, unassignedLowBytes, hword, List.map_const', List.length_range, List.sum_replicate,
    smul_eq_mul]

/-- Counting below `m * n` block by block. -/
theorem countP_range_mul (q : Nat → Bool) (m n : Nat) : (List.range (m * n)).countP q =
    ((List.range m).map fun a => (List.range n).countP fun b => q (a * n + b)).sum := by
  induction m with
  | zero => rw [Nat.zero_mul]; rfl
  | succ m ih =>
    rw [Nat.succ_mul, List.range_add, List.countP_append, List.countP_map, ih, List.range_succ, List.map_append,
      List.sum_append, List.map_singleton, List.sum_singleton]
    rfl

/-- All but 2 of the 256 low bytes in the classes 0x0 and 0xE, all but 9 in class 0xF, and 16 for each of 7 last nibbles in
class 0x8: counted by first and last nibble of the low byte. -/
theorem unassignedLowBytes_of_class : (List.range 16).map (fun c => unassignedLowBytes (BitVec.ofNat 4 c)) =
    [254, 0, 0, 0, 0, 0, 0, 0, 112, 0, 0, 0, 0, 0, 254, 247] := by
  simp only [unassignedLowBytes, countP_range_mul _ 16 16]
  decide

/-- Settles O8: 16 words for each unassigned low byte, class by class, and their sum. -/
theorem unknownWordCountsPerClass : Obligations.UnknownWordCountsPerClass := by
  have hcounts : (List.range 16).map unknownWords = [4064, 0, 0, 0, 0, 0, 0, 0, 1792, 0, 0, 0, 0, 0, 4064, 3952] :=
    calc (List.range 16).map unknownWords
      _ = ((List.range 16).map fun c => unassignedLowBytes (BitVec.ofNat 4 c)).map (16 * ·) := by
        rw [List.map_map]
        exact List.map_congr_left fun c _ => unknownWords_eq c
      _ = _ := by rw [unassignedLowBytes_of_class]; rfl
  exact ⟨hcounts, by rw [hcounts]; rfl⟩

end Sys2Proof.Machine
end

section
/-! PROOFS. The statements of 48_render.md: the spellings of numbers and operands, the line, its lengths and characters, and
what can be read back from it. A spelling over natural numbers gives its number back (`valueOf_hexOf`), which separates the
first 11 characters of two lines; a text is separated into its letters, which tell the form, and its lower-case hexadecimal
digits, which tell the operands (R137). -/

namespace Sys2Proof.Machine

open Sys2Proof.Claims

/-! ## Spellings of numbers (R119 to R122) -/

/-- Settles O16: the two padded spellings digit by digit, the shortest by its two cases. -/
theorem hexFunctionsSpellNumbers : Obligations.HexFunctionsSpellNumbers :=
  ⟨hex2_eq_hexOf, hex4_eq_hexOf, hexMin_eq_hexShort⟩

theorem hexOf_length (k v : Nat) : (hexOf k v).length = k := by
  induction k generalizing v with
  | zero => rfl
  | succ k ih => rw [hexOf, List.length_append, ih, List.length_singleton]

/-- The number that a lower-case hexadecimal digit stands for (R119). -/
def digitValue (c : Byte) : Nat := if c.toNat < 0x61 then c.toNat - 48 else c.toNat - 87

/-- The number that a text of lower-case hexadecimal digits spells. -/
def valueOf (t : Text) : Nat := t.foldl (fun v c => 16 * v + digitValue c) 0

theorem digitValue_digit : ∀ d < 16, digitValue (digit d) = d := by decide

theorem valueOf_append_singleton (t : Text) (c : Byte) : valueOf (t ++ [c]) = 16 * valueOf t + digitValue c := by
  rw [valueOf, List.foldl_append]
  rfl

/-- `k` digits keep the number modulo `16 ^ k`. -/
theorem valueOf_hexOf (k v : Nat) : valueOf (hexOf k v) = v % 16 ^ k := by
  induction k generalizing v with
  | zero => rw [pow_zero, Nat.mod_one]; rfl
  | succ k ih =>
    have hlast := digitValue_digit (v % 16) (Nat.mod_lt v (by decide))
    rw [hexOf, valueOf_append_singleton, ih, hlast, pow_succ', Nat.mod_mul, Nat.add_comm]

theorem hexOf_injective {k v v' : Nat} (hv : v < 16 ^ k) (hv' : v' < 16 ^ k) (h : hexOf k v = hexOf k v') : v = v' := by
  have hvalue := congrArg valueOf h
  rwa [valueOf_hexOf, valueOf_hexOf, Nat.mod_eq_of_lt hv, Nat.mod_eq_of_lt hv'] at hvalue

/-! ## Operand digits in both cases (R119, R123 to R125, R135) -/

section
variable (p : Config.Params)

theorem inCase_append (t u : Text) : inCase p (t ++ u) = inCase p t ++ inCase p u := by
  unfold inCase
  split
  case isTrue => exact List.map_append
  case isFalse => rfl

theorem inCase_V : inCase p (ascii ['V']) = ascii ['V'] := by
  unfold inCase
  split <;> rfl

/-- The case of a digit is what `inCase` makes of its lower-case spelling. -/
theorem hex1_eq_inCase (d : Nibble) : hex1 p.operandHexUpper d = inCase p (hexOf 1 d.toNat) := by
  rw [← hex1_eq_hexOf]
  unfold inCase
  cases p.operandHexUpper with
  | false => rfl
  | true => revert d; decide

theorem hex2_eq_inCase (b : Byte) : hex2 p.operandHexUpper b = inCase p (hexOf 2 b.toNat) := by
  rw [← hex2_eq_hexOf, show hex2 false b = hex1 false (hiNibble b) ++ hex1 false (loNibble b) from rfl, inCase_append,
    hex1_eq_hexOf, hex1_eq_hexOf, ← hex1_eq_inCase, ← hex1_eq_inCase]
  rfl

theorem reg_eq_inCase (x : Nibble) : reg p x = inCase p (regText x) := by
  rw [reg, hex1_eq_inCase, regText, inCase_append]
  exact congrArg (· ++ _) (inCase_V p).symm

theorem imm_eq_inCase (kk : Byte) : imm p kk = inCase p (hexShort kk.toNat) := by
  unfold imm hexMin hexShort
  split
  case isTrue hlt => rw [hex1_eq_inCase, toNat_loNibble, Nat.mod_eq_of_lt hlt]
  case isFalse => exact hex2_eq_inCase p kk

theorem addr_eq_inCase (nnn : Addr) : addr p nnn = inCase p (addrText nnn) := by
  rw [addr, hex1_eq_inCase, hex2_eq_inCase, ← inCase_append, ← hex1_eq_hexOf, ← hex2_eq_hexOf, ← addr_eq_addrText]
  rfl

end

/-! ## The line (R126, R127, R134) -/

/-- Settles O18: the model's first 11 characters are the ones spelled over natural numbers. -/
theorem lineIsPrefixThenText : Obligations.LineIsPrefixThenText := by
  intro p offset high low d
  rw [renderLine, linePrefix_eq_prefixText]

theorem renderLine_take (p : Config.Params) (offset : Word) (high low : Byte) (d : Instr) :
    (renderLine p offset high low d).take 11 = prefixText offset.toNat high.toNat low.toNat := by
  rw [← linePrefix_eq_prefixText]
  exact List.take_left' (linePrefix_length offset high low)

/-- Settles O17: each operand text is built of digits, whose case is `inCase`'s; the line start does not ask for the case. -/
theorem operandTextsSpellFields : Obligations.OperandTextsSpellFields :=
  ⟨fun d => ⟨hexDigit_eq_digit d, congrArg ([·]) (hexDigit_eq_digit d)⟩, by decide, reg_eq_inCase, imm_eq_inCase,
    addr_eq_inCase, fun p n => hex1_eq_inCase p n, renderLine_take, rfl⟩

/-- The three numbers stand at fixed places, and each spelling gives its number back. -/
theorem prefixText_injective {offset offset' : Word} {high low high' low' : Byte}
    (h : prefixText offset.toNat high.toNat low.toNat = prefixText offset'.toNat high'.toNat low'.toNat) :
    offset = offset' ∧ high = high' ∧ low = low' := by
  simp only [prefixText, List.append_assoc] at h
  obtain ⟨hoffset, h⟩ := List.append_inj h (by rw [hexOf_length, hexOf_length])
  obtain ⟨hhigh, h⟩ := List.append_inj (List.append_cancel_left h) (by rw [hexOf_length, hexOf_length])
  have hlow := List.append_cancel_right (List.append_cancel_left h)
  exact ⟨BitVec.eq_of_toNat_eq (hexOf_injective offset.isLt offset'.isLt hoffset),
    BitVec.eq_of_toNat_eq (hexOf_injective high.isLt high'.isLt hhigh),
    BitVec.eq_of_toNat_eq (hexOf_injective low.isLt low'.isLt hlow)⟩

/-- Settles O19: the first 11 characters are the spelled ones, which give their three numbers back. -/
theorem prefixDeterminesOffsetAndWord : Obligations.PrefixDeterminesOffsetAndWord := by
  intro p p' offset offset' high low high' low' d d'
  refine ⟨renderLine_take p offset high low d, ?_⟩
  rw [renderLine_take, renderLine_take]
  constructor
  · exact prefixText_injective
  · rintro ⟨rfl, rfl, rfl⟩
    rfl

/-- Settles O23: below 16 the first of two digits is 0, and the shortest spelling is the other one. -/
theorem prefixPaddedOperandUnpadded : Obligations.PrefixPaddedOperandUnpadded := by
  intro offset x kk hlt
  have hdecode : decode (0x6#4 ++ x) kk = .ldImm x kk := decodeWith_append _ _ _ _
  have hhigh : hex2 false (0x6#4 ++ x) = [0x36#8, digit x.toNat] := by
    rw [hex2, hiNibble_append, loNibble_append, hexDigit_eq_digit x]
    rfl
  have hdigit : hexOf 1 kk.toNat = [digit kk.toNat] := by rw [hexOf, Nat.mod_eq_of_lt hlt]; rfl
  have hlow : hex2 false kk = [0x30#8, digit kk.toNat] := by
    rw [hex2_eq_hexOf, hexOf, Nat.div_eq_of_lt hlt, Nat.mod_eq_of_lt hlt]
    rfl
  have himm : imm Config.hardware kk = [digit kk.toNat] := by rw [imm_eq_hexShort, hexShort, if_pos hlt, hdigit]
  rw [hdecode, renderLine, linePrefix, hhigh, hlow, hex4_eq_hexOf, ← reg_eq_regText]
  simp only [renderText, textLdImm, himm, space, comma, ascii, List.append_assoc, List.map_cons, List.map_nil,
    List.cons_append, List.nil_append]
  rfl

/-! ## Lengths (R133) -/

/-- The two shortest texts, the one longest, and all others between. -/
theorem renderText_length_cases (i : Instr) :
    (i = .cls ∨ i = .ret) ∧ (renderText Config.hardware i).length = 3 ∨
    6 ≤ (renderText Config.hardware i).length ∧ (renderText Config.hardware i).length ≤ 11 ∨
    (∃ x y n, i = .drw x y n) ∧ (renderText Config.hardware i).length = 13 := by
  have between {n : Nat} (h : 8 ≤ n ∧ n ≤ 10) : 6 ≤ n ∧ n ≤ 11 := by omega
  cases i with
  | cls => exact .inl ⟨.inl rfl, rfl⟩
  | ret => exact .inl ⟨.inr rfl, rfl⟩
  | drw x y n => exact .inr (.inr ⟨⟨x, y, n, rfl⟩, rfl⟩)
  | seImm x kk => exact .inr (.inl (between (regImmText_length _ x kk (by decide) (by decide))))
  | sneImm x kk => exact .inr (.inl (between (regImmText_length _ x kk (by decide) (by decide))))
  | ldImm x kk => exact .inr (.inl (between (regImmText_length _ x kk (by decide) (by decide))))
  | addImm x kk => exact .inr (.inl (between (regImmText_length _ x kk (by decide) (by decide))))
  | rnd x kk => exact .inr (.inl (between (regImmText_length _ x kk (by decide) (by decide))))
  | _ => exact .inr (.inl ⟨Nat.le_of_ble_eq_true rfl, Nat.le_of_ble_eq_true rfl⟩)

/-- Settles O20: the lengths by the three groups of forms, with a form for each length that occurs. -/
theorem textAndLineLengths : Obligations.TextAndLineLengths := by
  refine ⟨fun i => ?lengths, ?occur, fun i => ⟨fun h => ?three, ?short⟩, fun i => ⟨fun h => ?thirteen, ?long⟩, ?line⟩
  case lengths =>
    have h := renderText_length_cases i
    simp only [List.mem_cons, List.not_mem_nil, or_false]
    omega
  case occur =>
    simp only [List.forall_mem_cons]
    exact ⟨⟨.cls, rfl, rfl⟩, ⟨.jp 0, rfl, rfl⟩, ⟨.unknown, rfl, rfl⟩, ⟨.call 0, rfl, rfl⟩, ⟨.ldI 0, rfl, rfl⟩,
      ⟨.jpV0 0, rfl, rfl⟩, ⟨.subn 0 0, rfl, rfl⟩, ⟨.drw 0 0 0, rfl, rfl⟩, List.forall_mem_nil _⟩
  case three =>
    obtain ⟨hform, -⟩ | hmid | ⟨-, hlong⟩ := renderText_length_cases i
    · exact hform
    · omega
    · omega
  case short => rintro (rfl | rfl) <;> rfl
  case thirteen =>
    obtain ⟨-, hshort⟩ | hmid | ⟨hform, -⟩ := renderText_length_cases i
    · omega
    · omega
    · exact hform
  case long =>
    rintro ⟨x, y, n, rfl⟩
    rfl
  case line =>
    intro offset high low i
    rw [renderLine, List.length_append, linePrefix_length]

/-! ## A text as its letters and its digits (R131, R137) -/

/-- A lower-case hexadecimal digit (R119). -/
def isDigit (c : Byte) : Bool := (0x30 ≤ c.toNat && c.toNat ≤ 0x39) || (0x61 ≤ c.toNat && c.toNat ≤ 0x66)

/-- The characters of a text that are no digits: upper-case letters, separators and brackets. -/
def letters (t : Text) : Text := t.filter (!isDigit ·)

/-- The lower-case hexadecimal digits of a text. -/
def digits (t : Text) : Text := t.filter (isDigit ·)

@[simp] theorem letters_append (t u : Text) : letters (t ++ u) = letters t ++ letters u := List.filter_append ..
@[simp] theorem digits_append (t u : Text) : digits (t ++ u) = digits t ++ digits u := List.filter_append ..

theorem isDigit_digit : ∀ d < 16, isDigit (digit d) = true := by decide

theorem isDigit_of_mem_hexOf {k v : Nat} {c : Byte} (hc : c ∈ hexOf k v) : isDigit c = true := by
  induction k generalizing v with
  | zero => cases hc
  | succ k ih =>
    obtain hc | hc := List.mem_append.1 hc
    · exact ih hc
    · rw [List.mem_singleton.1 hc]
      exact isDigit_digit _ (Nat.mod_lt v (by decide))

@[simp] theorem letters_hexOf (k v : Nat) : letters (hexOf k v) = [] :=
  List.filter_eq_nil_iff.2 fun c hc => by simp [isDigit_of_mem_hexOf hc]

@[simp] theorem digits_hexOf (k v : Nat) : digits (hexOf k v) = hexOf k v :=
  List.filter_eq_self.2 fun _ hc => isDigit_of_mem_hexOf hc

@[simp] theorem letters_hexShort (v : Nat) : letters (hexShort v) = [] := by
  unfold hexShort
  split <;> exact letters_hexOf _ _

@[simp] theorem digits_hexShort (v : Nat) : digits (hexShort v) = hexShort v := by
  unfold hexShort
  split <;> exact digits_hexOf _ _

/-- A variant of the form `kind` with all operands 0. -/
def blankOf (kind : BitVec 6) : Instr := (DecodePorts.variant ⟨kind, unknownOutput kind, 0, 0, 0, 0, 0⟩).getD .unknown

/-- The letters of the texts of the form `kind`. -/
def formLetters (kind : BitVec 6) : Text := letters (renderText Config.hardware (blankOf kind))

/-- The operands that the text of a variant prints, in their order (R129). -/
def printedDigits : Instr → Text
  | .cls | .ret | .unknown => []
  | .jp nnn | .call nnn | .ldI nnn => hexOf 3 nnn.toNat
  | .jpV0 nnn => hexOf 1 0 ++ hexOf 3 nnn.toNat
  | .seImm x kk | .sneImm x kk | .ldImm x kk | .addImm x kk | .rnd x kk => hexOf 1 x.toNat ++ hexShort kk.toNat
  | .seReg x y | .sneReg x y | .ldReg x y | .or x y | .and x y | .xor x y | .addReg x y | .sub x y | .subn x y =>
    hexOf 1 x.toNat ++ hexOf 1 y.toNat
  | .drw x y n => hexOf 1 x.toNat ++ hexOf 1 y.toNat ++ hexOf 1 n.toNat
  | .shr x _ | .shl x _ | .skp x | .sknp x | .ldVxDt x | .ldVxK x | .ldDtVx x | .ldStVx x | .addIVx x | .ldFVx x
  | .ldBVx x | .ldMemVx x | .ldVxMem x => hexOf 1 x.toNat

section
variable (x : Nibble) (kk : Byte) (nnn : Addr)

@[simp] theorem letters_reg : letters (reg Config.hardware x) = ascii ['V'] := by
  rw [reg_eq_regText, regText, letters_append, letters_hexOf]
  rfl

@[simp] theorem digits_reg : digits (reg Config.hardware x) = hexOf 1 x.toNat := by
  rw [reg_eq_regText, regText, digits_append, digits_hexOf]
  rfl

@[simp] theorem letters_imm : letters (imm Config.hardware kk) = [] := by rw [imm_eq_hexShort, letters_hexShort]
@[simp] theorem digits_imm : digits (imm Config.hardware kk) = hexShort kk.toNat := by
  rw [imm_eq_hexShort, digits_hexShort]

@[simp] theorem letters_addr : letters (addr Config.hardware nnn) = [] := by
  rw [addr_eq_addrText, addrText, letters_hexOf]
@[simp] theorem digits_addr : digits (addr Config.hardware nnn) = hexOf 3 nnn.toNat := by
  rw [addr_eq_addrText, addrText, digits_hexOf]

@[simp] theorem letters_cnt : letters (cnt Config.hardware x) = [] := by rw [cnt_eq_hexOf, letters_hexOf]
@[simp] theorem digits_cnt : digits (cnt Config.hardware x) = hexOf 1 x.toNat := by rw [cnt_eq_hexOf, digits_hexOf]

end
/-- The letters of a text tell the form and nothing of the operands; its digits are the operands. -/
theorem letters_digits_renderText (i : Instr) :
    letters (renderText Config.hardware i) = formLetters i.kind ∧
      digits (renderText Config.hardware i) = printedDigits i := by
  cases i <;>
    simp [formLetters, blankOf, Instr.kind, DecodePorts.variant, printedDigits, renderText, textCls, textRet, textJp,
      textCall, textSeImm, textSneImm, textSeReg, textLdImm, textAddImm, textLdReg, textOr, textAnd, textXor, textAddReg,
      textSub, textShr, textSubn, textShl, textSneReg, textLdI, textJpV0, textRnd, textDrw, textSkp, textSknp, textLdVxDt,
      textLdVxK, textLdDtVx, textLdStVx, textAddIVx, textLdFVx, textLdBVx, textLdMemVx, textLdVxMem, textUnknown] <;>
    rfl

/-- No two forms have the same letters. -/
theorem formLetters_nodup : ((List.range 35).map fun k => formLetters (BitVec.ofNat 6 k)).Nodup := by decide

theorem kind_eq_of_formLetters_eq {i j : Instr} (h : formLetters i.kind = formLetters j.kind) : i.kind = j.kind := by
  have hmem (i : Instr) : i.kind.toNat ∈ List.range 35 := List.mem_range.2 (Nat.lt_succ_of_le (kind_le i))
  have hletters (i : Instr) : formLetters (BitVec.ofNat 6 i.kind.toNat) = formLetters i.kind := by
    rw [BitVec.ofNat_toNat, BitVec.setWidth_eq]
  rw [← hletters i, ← hletters j] at h
  exact BitVec.eq_of_toNat_eq (List.inj_on_of_nodup_map formLetters_nodup (hmem i) (hmem j) h)

/-! ### The operands read back from the digits -/

/-- The variant of the form `kind` whose text prints the digits `ds`: read from the wires that show these operands. -/
def readBack (kind : BitVec 6) (ds : Text) : Option Instr :=
  DecodePorts.variant
    { kind := kind
      unknown := unknownOutput kind
      x := BitVec.ofNat 4 (valueOf (ds.take 1))
      y := BitVec.ofNat 4 (valueOf ((ds.drop 1).take 1))
      n := BitVec.ofNat 4 (valueOf (ds.drop 2))
      kk := BitVec.ofNat 8 (valueOf (ds.drop 1))
      nnn := BitVec.ofNat 12 (valueOf ds) }

/-- The variant with the field that its text does not print set to 0: `y` of the two shifts (R91, R93). -/
def printed : Instr → Instr
  | .shr x _ => .shr x 0
  | .shl x _ => .shl x 0
  | i => i

theorem hexOf_one_nibble (x : Nibble) : hexOf 1 x.toNat = [digit x.toNat] := by
  rw [hexOf, Nat.mod_eq_of_lt x.isLt]
  rfl

theorem valueOf_nil : valueOf [] = 0 := rfl

theorem valueOf_hexOf_zero_append (t : Text) : valueOf (hexOf 1 0 ++ t) = valueOf t := rfl

theorem valueOf_digit (x : Nibble) : valueOf [digit x.toNat] = x.toNat := by
  rw [← hexOf_one_nibble]
  exact (valueOf_hexOf 1 x.toNat).trans (Nat.mod_eq_of_lt x.isLt)

theorem valueOf_hexShort (kk : Byte) : valueOf (hexShort kk.toNat) = kk.toNat := by
  unfold hexShort
  split
  case isTrue hlt => exact (valueOf_hexOf 1 kk.toNat).trans (Nat.mod_eq_of_lt hlt)
  case isFalse => exact (valueOf_hexOf 2 kk.toNat).trans (Nat.mod_eq_of_lt kk.isLt)

theorem valueOf_hexOf_three (nnn : Addr) : valueOf (hexOf 3 nnn.toNat) = nnn.toNat :=
  (valueOf_hexOf 3 nnn.toNat).trans (Nat.mod_eq_of_lt nnn.isLt)

theorem readBack_printedDigits (i : Instr) : readBack i.kind (printedDigits i) = some (printed i) := by
  cases i <;>
    simp [readBack, printedDigits, printed, DecodePorts.variant, Instr.kind, hexOf_one_nibble, valueOf_nil,
      valueOf_hexOf_zero_append, valueOf_digit, valueOf_hexShort, valueOf_hexOf_three]

/-- A text tells its variant, but for the field that it does not print. -/
theorem printed_eq_of_renderText_eq {i j : Instr} (h : renderText Config.hardware i = renderText Config.hardware j) :
    printed i = printed j := by
  obtain ⟨hletters, hdigits⟩ := letters_digits_renderText i
  obtain ⟨hletters', hdigits'⟩ := letters_digits_renderText j
  have hkind : i.kind = j.kind := kind_eq_of_formLetters_eq (by rw [← hletters, ← hletters', h])
  have hoperands : printedDigits i = printedDigits j := by rw [← hdigits, ← hdigits', h]
  apply Option.some.inj
  rw [← readBack_printedDigits, ← readBack_printedDigits, hkind, hoperands]

theorem printed_cases (i : Instr) : printed i = i ∨ (∃ x y, i = .shr x y) ∨ ∃ x y, i = .shl x y := by
  cases i with
  | shr x y => exact .inr (.inl ⟨x, y, rfl⟩)
  | shl x y => exact .inr (.inr ⟨x, y, rfl⟩)
  | _ => exact .inl rfl

/-- Settles O22: letters and digits give back all that a text prints, which is all but `y` of the two shifts. -/
theorem textDeterminesVariantUpToShiftSource : Obligations.TextDeterminesVariantUpToShiftSource := by
  intro i j
  constructor
  · intro h
    have hprinted := printed_eq_of_renderText_eq h
    obtain hi | ⟨x, y, rfl⟩ | ⟨x, y, rfl⟩ := printed_cases i <;>
      obtain hj | ⟨x', y', rfl⟩ | ⟨x', y', rfl⟩ := printed_cases j
    · exact .inl (hi.symm.trans (hprinted.trans hj))
    · exact .inr (.inl ⟨x', 0, y', hi.symm.trans hprinted, rfl⟩)
    · exact .inr (.inr ⟨x', 0, y', hi.symm.trans hprinted, rfl⟩)
    · exact .inr (.inl ⟨x, y, 0, rfl, hj.symm.trans hprinted.symm⟩)
    · obtain ⟨rfl, -⟩ := Instr.shr.inj hprinted
      exact .inr (.inl ⟨x, y, y', rfl, rfl⟩)
    · cases hprinted
    · exact .inr (.inr ⟨x, y, 0, rfl, hj.symm.trans hprinted.symm⟩)
    · cases hprinted
    · obtain ⟨rfl, -⟩ := Instr.shl.inj hprinted
      exact .inr (.inr ⟨x, y, y', rfl, rfl⟩)
  · rintro (rfl | ⟨x, y, y', rfl, rfl⟩ | ⟨x, y, y', rfl, rfl⟩) <;> rfl

/-! ### The characters of a line (R131) -/

theorem mem_lineCharacters_of_isDigit : ∀ c : Byte, isDigit c = true → c ∈ lineCharacters := by decide

theorem formLetters_subset : ∀ kind : BitVec 6, formLetters kind ⊆ lineCharacters := by decide

theorem letters_linePrefix (offset : Word) (high low : Byte) :
    letters (linePrefix offset high low) = [0x20#8, 0x20#8, 0x20#8] := by
  simp only [linePrefix, hex4_eq_hexOf, hex2_eq_hexOf, letters_append, letters_hexOf]
  rfl

/-- Settles O21: a character of a line is a digit, one of the three spaces of its start or one of the form's letters. -/
theorem linesUseOnlyListedCharacters : Obligations.LinesUseOnlyListedCharacters := by
  intro offset high low i c hc
  have hletters : letters (renderLine Config.hardware offset high low i) ⊆ lineCharacters := by
    rw [renderLine, letters_append, letters_linePrefix, (letters_digits_renderText i).1]
    exact List.append_subset.2 ⟨by decide, formLetters_subset i.kind⟩
  cases hdigit : isDigit c with
  | true => exact mem_lineCharacters_of_isDigit c hdigit
  | false => exact hletters (List.mem_filter.2 ⟨hc, by rw [hdigit]; rfl⟩)

end Sys2Proof.Machine
end

section
/-! PROOFS. The statements of 70_reset_and_hazards.md and the curated words of 95_test_vectors.md: the outcome of a step in
every state, the first word of a run, and the whole run. A run is an induction on its steps: each one keeps the driver's
invariant (`everyStepKeepsDriverInvariant`), and the invariant holds the lines taken and the offset of the end. -/

namespace Sys2Proof.Machine

open Sys2Proof.Claims

/-- Settles O15: each word by evaluation. -/
theorem curatedWordsDecodeAsTheSourceSays : Obligations.CuratedWordsDecodeAsTheSourceSays := by
  unfold Obligations.CuratedWordsDecodeAsTheSourceSays
  decide

/-! ## The outcome of a step (R31, R160, R161) -/

/-- Settles O32: a step that answers was enabled, and in an image that fits every enabled step answers. -/
theorem stepEmitsLineAndAdvancesByTwo : Obligations.StepEmitsLineAndAdvancesByTwo := by
  intro s hfits
  refine ⟨⟨?enabled, fun henabled => ⟨_, step_of_imageFits hfits henabled⟩⟩, step_of_imageFits hfits⟩
  case enabled =>
    rintro ⟨t, hstep⟩
    obtain ⟨henabled, -⟩ := step_next hstep
    exact henabled

theorem step_of_ended {s : State} (hended : ¬ s.offset + 1 < 0x200 + s.len) : step s = .refused .runEnded := by
  rw [step_eq, if_neg hended]

theorem step_of_not_callOk {s : State} (henabled : s.offset + 1 < 0x200 + s.len) (hcall : ¬ s.CallOk) :
    step s = .refused .outOfBuffer := by
  rw [step_eq, if_pos henabled, if_neg hcall]

theorem step_of_callOk {s : State} (henabled : s.offset + 1 < 0x200 + s.len) (hcall : s.CallOk) :
    step s = .next (after s (renderText Config.hardware (decode (highAt s) (lowAt s)))) := by
  rw [stepRunsDecodedInstruction s henabled hcall.1 hcall.2, exec_of_callOk _ hcall]

/-- Settles O33: the loop condition and the call's precondition leave three cases, each with its own outcome. -/
theorem stepRefusesAtEndOfRun : Obligations.StepRefusesAtEndOfRun := by
  intro s
  by_cases henabled : s.offset + 1 < 0x200 + s.len
  · by_cases hcall : s.CallOk
    · simp [step_of_callOk henabled hcall, henabled, hcall]
    · simp [step_of_not_callOk henabled hcall, henabled, hcall]
  · simp [step_of_ended henabled, henabled]

/-! ## The first word of a run (R157) -/

/-- Settles O47: the load puts the image's first two bytes at the offset, below `BASE + LEN` and inside the buffer. -/
theorem firstWordDecodedIsAtBase : Obligations.FirstWordDecodedIsAtBase := by
  intro s t high low rest hload
  obtain ⟨hfits, hoffset, hsize, hlen, -⟩ := load_fields hload
  rw [List.length_cons, List.length_cons] at hfits hsize hlen
  have henabled : t.offset + 1 < 0x200 + t.len := by omega
  have hcall : t.CallOk := (callOk_iff t).2 ⟨by omega, by omega⟩
  have hhigh : highAt t = high := by
    rw [highAt, hoffset]
    exact byteAt_load_image (k := 0) hload rfl
  have hlow : lowAt t = low := by
    rw [lowAt, hoffset]
    exact byteAt_load_image (k := 1) hload rfl
  have hstep : step t = exec (decode high low) t := step_of_bytes henabled hcall.1 hcall.2 hhigh hlow
  exact ⟨hoffset, hstep, hstep.trans (exec_of_callOk _ hcall), hhigh, hlow⟩

/-! ## The whole run (R40, R161) -/

theorem getElem?_listing (m : Memory) {k n : Nat} (hk : k < n) : (listing m n)[k]? = some (lineAt m (0x200 + 2 * k)) := by
  rw [listing, List.getElem?_map, List.getElem?_range hk]
  rfl

/-- The loop is enabled as long as a complete word is left. -/
theorem enabled_iff_of_driverInv {s : State} (hinv : s.DriverInv) :
    s.offset + 1 < 0x200 + s.len ↔ s.lines.length < s.len / 2 := by
  obtain ⟨-, hoffset, -, -⟩ := hinv
  rw [hoffset, base_eq]
  omega

/-- As many steps as there are words left, or fewer, all answer, take one line each and keep the driver's invariant. -/
theorem run_of_driverInv (n : Nat) {s : State} (hinv : s.DriverInv) (hleft : s.lines.length + n ≤ s.len / 2) :
    ∃ t : State, Sys2Proof.core.run n s = .next t ∧ t.DriverInv ∧ t.mem = s.mem ∧ t.len = s.len ∧
      t.lines.length = s.lines.length + n := by
  induction n generalizing s with
  | zero => exact ⟨s, run_zero s, hinv, rfl, rfl, rfl⟩
  | succ n ih =>
    have henabled := (enabled_iff_of_driverInv hinv).2 (by omega)
    have ⟨hfits, _⟩ := hinv
    have hstep := step_of_imageFits hfits henabled
    have hinv' := everyStepKeepsDriverInvariant s _ hinv hstep
    obtain ⟨-, -, hmem, hlen, hlines⟩ := step_next_fields hstep
    have hcount := congrArg List.length hlines
    rw [List.length_append, List.length_singleton] at hcount
    obtain ⟨t, hrun, htinv, htmem, htlen, htcount⟩ := ih hinv' (by rw [hcount, hlen]; omega)
    exact ⟨t, (run_succ hstep n).trans hrun, htinv, htmem.trans hmem, htlen.trans hlen, by rw [htcount, hcount]; omega⟩

/-- Settles O52: after one step for each word left the invariant gives the offset and the lines, and no word is left. -/
theorem runTakesHalfTheLengthInSteps : Obligations.RunTakesHalfTheLengthInSteps := by
  intro s hinv
  have ⟨_, _, hpassed, _⟩ := hinv
  obtain ⟨t, hrun, htinv, hmem, hlen, hcount⟩ := run_of_driverInv (s.len / 2 - s.lines.length) hinv (by omega)
  have hall : t.lines.length = s.len / 2 := by omega
  have hended : ¬ t.offset + 1 < 0x200 + t.len := by
    rw [enabled_iff_of_driverInv htinv, hall, hlen]
    exact Nat.lt_irrefl _
  obtain ⟨-, hoffset, -, hlines⟩ := htinv
  rw [hall] at hoffset hlines
  refine ⟨t, hrun, hoffset, hmem, hall, fun k hk => ?_, step_of_ended hended⟩
  rw [hlines, hmem, getElem?_listing s.mem hk]
  rfl

end Sys2Proof.Machine
end
